-- ==== Sys2Proof/Word.lean ====
section
/-! DEFINITION. The word types of the machine: every register, memory cell, operand byte, the program counter and the flag
register is one byte (XLEN = 8, spec 00_scope.md R5); a register index is a number below 8 (NREG = 8, R5). -/

namespace Sys2Proof

/-- A byte: an unsigned 8-bit value (R5 `XLEN`, R7). Bit 0 is the least significant bit. -/
abbrev Byte := BitVec 8

/-- A validated register index, in `[0,8)` (R5 `NREG`, R14). -/
abbrev RegIdx := Fin 8

end Sys2Proof
end

