-- ==== Sys2Proof/Syntax.lean ====
section
/-! DEFINITION. The instructions: one constructor per row of spec/opcode_table.json (30_encoding.md R64), in the table's
order. Operands are the raw operand bytes: "any byte may stand in an operand position; whether it is acceptable is decided
at execution" (R70), so a register operand of 8..255 is an instruction that raises `RegisterIndexInvalid` when it
runs (DESIGN CHOICE: raw operands, log entry 5). -/

namespace Sys2Proof

/-- The 22 instructions of R64. `r`, `a`, `b` are register operand bytes, `imm` is LDI's immediate byte. -/
inductive Instr where
  | ldi (r imm : Byte)   -- 0x82  LDI reg, imm
  | prn (r : Byte)       -- 0x47  PRN reg
  | hlt                  -- 0x01  HLT
  | push (r : Byte)      -- 0x45  PUSH reg
  | pop (r : Byte)       -- 0x46  POP reg
  | call (r : Byte)      -- 0x50  CALL reg
  | ret                  -- 0x11  RET
  | jmp (r : Byte)       -- 0x54  JMP reg
  | jeq (r : Byte)       -- 0x55  JEQ reg
  | jne (r : Byte)       -- 0x56  JNE reg
  | add (a b : Byte)     -- 0xA0  ADD regA, regB
  | sub (a b : Byte)     -- 0xA1  SUB regA, regB
  | mul (a b : Byte)     -- 0xA2  MUL regA, regB
  | div (a b : Byte)     -- 0xA3  DIV regA, regB
  | mod (a b : Byte)     -- 0xA4  MOD regA, regB
  | cmp (a b : Byte)     -- 0xA7  CMP regA, regB
  | and (a b : Byte)     -- 0xA8  AND regA, regB
  | or (a b : Byte)      -- 0xAA  OR regA, regB
  | xor (a b : Byte)     -- 0xAB  XOR regA, regB
  | not (a : Byte)       -- 0x69  NOT regA
  | shl (a b : Byte)     -- 0xAC  SHL regA, regB
  | shr (a b : Byte)     -- 0xAD  SHR regA, regB
  deriving DecidableEq, Repr

end Sys2Proof
end

