-- ==== Sys2Proof/WellFormed.lean ====
section
/-! DEFINITION. Which instructions name only registers that exist: "all register indices are raw bytes used as Register File
indices and must be validated in [0,8)" (30_encoding.md R63, 40_engine_cycle.md R85). The encoding itself admits every
operand byte (R70); an instruction that is not well-formed decodes, and raises `RegisterIndexInvalid` when it runs. -/

namespace Sys2Proof

/-- A register operand byte names a register: it is in `[0,8)`, not masked (R63). -/
def validIndex (r : Byte) : Bool := decide (r.toNat < 8)

/-- Every register operand of the instruction is in `[0,8)`; LDI's immediate is exempt (R85). -/
def Instr.wf : Instr → Bool
  | .ldi r _ => validIndex r
  | .prn r => validIndex r
  | .hlt => true
  | .push r => validIndex r
  | .pop r => validIndex r
  | .call r => validIndex r
  | .ret => true
  | .jmp r => validIndex r
  | .jeq r => validIndex r
  | .jne r => validIndex r
  | .add a b => validIndex a && validIndex b
  | .sub a b => validIndex a && validIndex b
  | .mul a b => validIndex a && validIndex b
  | .div a b => validIndex a && validIndex b
  | .mod a b => validIndex a && validIndex b
  | .cmp a b => validIndex a && validIndex b
  | .and a b => validIndex a && validIndex b
  | .or a b => validIndex a && validIndex b
  | .xor a b => validIndex a && validIndex b
  | .not a => validIndex a
  | .shl a b => validIndex a && validIndex b
  | .shr a b => validIndex a && validIndex b

end Sys2Proof
end

