-- ==== Sys2Proof/Decode.lean ====
section
/-! DEFINITION. The decoder and the encoder, from the opcode map of 30_encoding.md R64. The decoder matches the WHOLE opcode
byte (R65); the opcode check comes before any operand byte is looked at (40_engine_cycle.md R83; DEDUCED: D4,
log entry 13); every byte outside the
table is refused by name (R68). -/

namespace Sys2Proof

/-- Why a sequence of bytes is no instruction. -/
inductive DecodeError where
  /-- There is no opcode byte at all. (Never met by the machine's fetch: the program counter is always a valid address.) -/
  | noBytes
  /-- The opcode byte is none of the 22 of R64 (R68, R69). -/
  | unknownInstruction (opcode : Byte)
  /-- The opcode is known and takes operands, but the byte after it is missing (R84). -/
  | missingOperandA
  /-- The opcode is known and takes two operands, but the second is missing (R84). -/
  | missingOperandB
  deriving DecidableEq, Repr

/-- The operand shape of a row of R64: no operand byte, one, or two, each a whole byte (R62). -/
inductive Shape where
  | zero (i : Instr)
  | one (mk : Byte → Instr)
  | two (mk : Byte → Byte → Instr)

/-- The opcode map R64: "a byte selects an instruction if and only if it equals one of the 22 values" (R65). -/
def lookupOpcode (opcode : Byte) : Option Shape :=
  match opcode.toNat with
  | 0x82 => some (.two .ldi)
  | 0x47 => some (.one .prn)
  | 0x01 => some (.zero .hlt)
  | 0x45 => some (.one .push)
  | 0x46 => some (.one .pop)
  | 0x50 => some (.one .call)
  | 0x11 => some (.zero .ret)
  | 0x54 => some (.one .jmp)
  | 0x55 => some (.one .jeq)
  | 0x56 => some (.one .jne)
  | 0xA0 => some (.two .add)
  | 0xA1 => some (.two .sub)
  | 0xA2 => some (.two .mul)
  | 0xA3 => some (.two .div)
  | 0xA4 => some (.two .mod)
  | 0xA7 => some (.two .cmp)
  | 0xA8 => some (.two .and)
  | 0xAA => some (.two .or)
  | 0xAB => some (.two .xor)
  | 0x69 => some (.one .not)
  | 0xAC => some (.two .shl)
  | 0xAD => some (.two .shr)
  | _ => none

/-- The `count` field, bits 7:6 of the opcode byte (R61). -/
def countField (opcode : Byte) : Nat := (opcode >>> 6).toNat

/-- How many bytes the fetch reads for this opcode byte: `opcode[7:6] + 1` for a known one (R67, R84); only the opcode byte
itself for an unknown one, whose operands are never read (R83). -/
def fetchLength (opcode : Byte) : Nat :=
  match lookupOpcode opcode with
  | none => 1
  | some _ => countField opcode + 1

/-- Decode the instruction at the front of a list of bytes, and give the bytes after it. Total on any bytes. -/
def decode : List Byte → Except DecodeError (Instr × List Byte)
  | [] => .error .noBytes
  | opcode :: rest =>
    match lookupOpcode opcode with
    | none => .error (.unknownInstruction opcode)
    | some (.zero i) => .ok (i, rest)
    | some (.one mk) =>
      match rest with
      | [] => .error .missingOperandA
      | a :: rest => .ok (mk a, rest)
    | some (.two mk) =>
      match rest with
      | [] => .error .missingOperandA
      | [_] => .error .missingOperandB
      | a :: b :: rest => .ok (mk a b, rest)

/-- The bytes of an instruction in address order: the opcode byte, then operand A, then operand B (R60, R64). -/
def encode : Instr → List Byte
  | .ldi r imm => [0x82#8, r, imm]
  | .prn r => [0x47#8, r]
  | .hlt => [0x01#8]
  | .push r => [0x45#8, r]
  | .pop r => [0x46#8, r]
  | .call r => [0x50#8, r]
  | .ret => [0x11#8]
  | .jmp r => [0x54#8, r]
  | .jeq r => [0x55#8, r]
  | .jne r => [0x56#8, r]
  | .add a b => [0xA0#8, a, b]
  | .sub a b => [0xA1#8, a, b]
  | .mul a b => [0xA2#8, a, b]
  | .div a b => [0xA3#8, a, b]
  | .mod a b => [0xA4#8, a, b]
  | .cmp a b => [0xA7#8, a, b]
  | .and a b => [0xA8#8, a, b]
  | .or a b => [0xAA#8, a, b]
  | .xor a b => [0xAB#8, a, b]
  | .not a => [0x69#8, a]
  | .shl a b => [0xAC#8, a, b]
  | .shr a b => [0xAD#8, a, b]

/-- The three bytes (the longest instruction) of a word numbered as the opcode table numbers it: bits 7:0 are the opcode
byte, bits 15:8 operand A, bits 23:16 operand B; bits from `nbits` up are 0. -/
def tableWordBytes (nbits w : Nat) : List Byte :=
  let v := w % 2 ^ nbits
  [BitVec.ofNat 8 v, BitVec.ofNat 8 (v / 2 ^ 8), BitVec.ofNat 8 (v / 2 ^ 16)]

/-- What the decoder reads from an instruction whose bits are `w`, numbered as spec/opcode_table.json numbers them. -/
def decodeTableWord (nbits w : Nat) : Option Instr :=
  match decode (tableWordBytes nbits w) with
  | .ok (i, _) => some i
  | .error _ => none

end Sys2Proof
end

