-- ==== Sys2Proof/Config.lean ====
section
/-! DEFINITION. What a platform fixes for the machine. The spec leaves exactly one parameter open, `STACK_FLOOR`
(00_scope.md R5, R6; 92_eei_decisions.md D8). Nothing in the spec is an undefined value, so there is no free value here. -/

namespace Sys2Proof

/-- The platform's parameters (R6). No step ever changes them. -/
structure Config where
  /-- `STACK_FLOOR`: the lowest address PUSH and CALL may write, in `[0,255]` (R5, R113, D8). Its default, 0, is the spec's
  (DEDUCED: D8, log entry 14). -/
  stackFloor : Byte
  deriving DecidableEq, Repr

/-- The spec's default: `STACK_FLOOR = 0`, where only a decrement below 0 is caught (R5, R113). -/
def Config.default : Config := { stackFloor := 0#8 }

end Sys2Proof
end

