-- ==== Sys2Proof/Machine/State.lean ====
section
/-! DEFINITION. The state of the machine as plain data: the tuple of 10_state.md R13 (`R`, `PC`, `FL`, `M`, `STATUS`,
`REPORT`, `OUT`), and beside it the platform's parameters, which every step leaves alone. -/

namespace Sys2Proof.Machine

/-- The eight general registers R0..R7 (R13, R16). R7 is the stack pointer by convention only. -/
structure Regs where
  r0 : Byte
  r1 : Byte
  r2 : Byte
  r3 : Byte
  r4 : Byte
  r5 : Byte
  r6 : Byte
  r7 : Byte
  deriving DecidableEq, Repr

/-- Memory: the cells that do not hold 0, as (address, byte) pairs by rising address. An address below 256 that is not listed
reads as 0 (R26 "zero-initialized"; R41 "or 0 if none since reset"). DESIGN CHOICE: this canonical form, log entry 2. -/
abbrev Memory := List Host.Cell

/-- `STATUS` (R24). -/
inductive Status where
  | running
  | halted
  | fatal
  deriving DecidableEq, Repr

/-- The six reasons of a fatal error (60_exceptions.md R166). -/
inductive FatalReason where
  | outOfBounds
  | registerIndexInvalid
  | divideByZero
  | unknownInstruction
  | stackUnderflow
  | stackOverflow
  deriving DecidableEq, Repr

/-- The number of a reason on a run-result interface that needs one: the spec's own numbering (R166; DEDUCED: D12, log
entry 16). Nothing in the machine depends on it. -/
def FatalReason.code : FatalReason → Nat
  | .outOfBounds => 1
  | .registerIndexInvalid => 2
  | .divideByZero => 3
  | .unknownInstruction => 4
  | .stackUnderflow => 5
  | .stackOverflow => 6

/-- What an instruction raises: the reason and the `info` of R166's last column (an integer: a stack pointer value may be −1;
absent for `DivideByZero`). -/
structure Trap where
  reason : FatalReason
  info : Option Int
  deriving DecidableEq, Repr

/-- `REPORT` (R25, R172; DEDUCED: its fields are D23's, log entry 22): reason and context of the fatal error. -/
structure Report where
  reason : FatalReason
  /-- The address of the failing instruction's opcode byte. -/
  pc : Byte
  /-- The opcode byte. -/
  opcode : Byte
  /-- Operand A, if it had been fetched when the error was detected. -/
  opA : Option Byte
  /-- Operand B, if it had been fetched when the error was detected. -/
  opB : Option Byte
  info : Option Int
  deriving DecidableEq, Repr

/-- The whole state (R13). -/
structure State where
  /-- `R`, the general registers (R14 to R17). -/
  regs : Regs
  /-- `PC`, the address of the opcode byte of the next instruction (R18, R19). -/
  pc : Byte
  /-- `FL`, the flag register: bit 0 Equal, bit 1 Greater, bit 2 Less (R21). -/
  fl : Byte
  /-- `M`, the 256 memory cells (R26, R40). -/
  mem : Memory
  /-- `STATUS` (R24). -/
  status : Status
  /-- `REPORT`, absent until an error is raised (R25, R30). -/
  report : Option Report
  /-- `OUT`, the bytes PRN has emitted since reset, oldest first (R27; DEDUCED: D13, log entry 17). -/
  out : List Byte
  /-- The platform's parameter `STACK_FLOOR` (R5, R6). Not state of the spec's machine (R29): it stands here because `exec`
  and `step` take nothing but the state, so that a statement over all states is one over all its values (DESIGN CHOICE, log
  entry 1). -/
  config : Config
  deriving DecidableEq, Repr

/-- Errors reported TO THE HOST that made a call on the engine's interface; the machine is untouched. No step of the machine
answers with a fault: a fatal error of the running program is a next state whose `STATUS` is `Fatal` (R171; DESIGN CHOICE: log
entry 3). -/
inductive Fault where
  /-- Raised by `Session.loadBytes` for a range that leaves `[0,256)` (R204) and by `State.readMemory` for an address that does
  (R207). Safe: the call fails whole, as the spec says. -/
  | outOfBounds (addr : Nat)
  /-- Raised by `State.readRegister` for an index outside `[0,8)` (R207). Safe: the spec says the call fails so. -/
  | registerIndexInvalid (index : Nat)
  deriving DecidableEq, Repr

/-- What the model gives no meaning. -/
inductive Refusal where
  /-- An instruction without a meaning yet, rejected by name in `exec`'s arm. Safe. (No arm does so: all 22 are modelled.) -/
  | notModelled (mnemonic : String)
  /-- `Session.loadBytes` after the first step since reset: "this spec gives such a call no meaning (a model refuses it)"
  (R203; DEDUCED: D14, log entry 18). Safe. -/
  | loadAfterStart
  deriving DecidableEq, Repr

/-- The outcome type of every meaning and of the step. -/
abbrev Outcome := Host.Outcome State Fault Refusal

/-- `SP_INIT` of R5. -/
def spInit : Byte := 0xF4#8

/-- The registers after reset: R0..R6 are 0, R7 is `SP_INIT` (R30). -/
def Regs.reset : Regs :=
  { r0 := 0#8, r1 := 0#8, r2 := 0#8, r3 := 0#8, r4 := 0#8, r5 := 0#8, r6 := 0#8, r7 := spInit }

/-- The machine right after reset (R30, R196; DEDUCED: D9, log entry 15), on a platform with the spec's default parameter. -/
def State.reset : State :=
  { regs := Regs.reset
    pc := 0#8
    fl := 0#8
    mem := []
    status := .running
    report := none
    out := []
    config := Config.default }

end Sys2Proof.Machine
end

