-- ==== Sys2Proof/Machine/Ops.lean ====
section
/-! DEFINITION. The named operations: memory access, register access, the program counter's advance, the stack pointer's two
moves, emitting, and RAISING A FATAL ERROR (the machine's only exception entry; it has no return, 60_exceptions.md R177). -/

namespace Sys2Proof.Machine

/-! ### Memory (20_memory.md) -/

/-- The byte a cell holds: what is listed for the address, else 0. -/
def Memory.get (m : Memory) (a : Nat) : Byte :=
  match m with
  | [] => 0#8
  | (k, v) :: rest => if k = a then v else Memory.get rest a

/-- `MemRead(addr, 1)`: the byte at an address in `[0,256)`; `none` is `OutOfBounds` (R41). -/
def Memory.read (m : Memory) (a : Nat) : Option Byte :=
  if a < 256 then some (m.get a) else none

/-- Put a cell in front of the first one with a greater address. -/
def Memory.insert (m : Memory) (a : Nat) (v : Byte) : Memory :=
  match m with
  | [] => [(a, v)]
  | (k, w) :: rest => if a < k then (a, v) :: (k, w) :: rest else (k, w) :: Memory.insert rest a v

/-- Drop whatever is listed for an address. -/
def Memory.erase (m : Memory) (a : Nat) : Memory :=
  m.filter (fun c => decide (c.1 ≠ a))

/-- Set one cell, keeping the canonical form: a cell set to 0 is not listed. -/
def Memory.set (m : Memory) (a : Nat) (v : Byte) : Memory :=
  if v = 0#8 then m.erase a else (m.erase a).insert a v

/-- `MemWrite(addr, 1, v)`: "sets `M[addr]` to `v` and changes no other cell"; `none` is `OutOfBounds` (R42). -/
def Memory.write (m : Memory) (a : Nat) (v : Byte) : Option Memory :=
  if a < 256 then some (m.set a v) else none

/-- Read up to `n` bytes from ascending addresses, stopping before the first address outside `[0,256)`. -/
def Memory.readUpTo (m : Memory) (a : Nat) : Nat → List Byte
  | 0 => []
  | n + 1 =>
    match m.read a with
    | none => []
    | some b => b :: m.readUpTo (a + 1) n

/-- Write a sequence of bytes at ascending addresses, dropping those whose address is outside `[0,256)`. -/
def Memory.place (m : Memory) (a : Nat) : List Byte → Memory
  | [] => m
  | b :: bs => Memory.place ((m.write a b).getD m) (a + 1) bs

/-- The canonical form: addresses strictly rising and below 256, no cell listed that holds 0. -/
def Memory.wf (m : Memory) : Bool :=
  match m with
  | [] => true
  | (k, v) :: rest =>
    decide (k < 256) && decide (v ≠ 0#8) && rest.all (fun c => decide (k < c.1)) && Memory.wf rest

/-! ### Registers and the plain fields (10_state.md) -/

/-- `R[i]` of a register file (R14). -/
def Regs.get (r : Regs) (i : RegIdx) : Byte :=
  match i with
  | 0 => r.r0
  | 1 => r.r1
  | 2 => r.r2
  | 3 => r.r3
  | 4 => r.r4
  | 5 => r.r5
  | 6 => r.r6
  | 7 => r.r7

/-- `R[i] <- v` (R15). -/
def Regs.set (r : Regs) (i : RegIdx) (v : Byte) : Regs :=
  match i with
  | 0 => { r with r0 := v }
  | 1 => { r with r1 := v }
  | 2 => { r with r2 := v }
  | 3 => { r with r3 := v }
  | 4 => { r with r4 := v }
  | 5 => { r with r5 := v }
  | 6 => { r with r6 := v }
  | 7 => { r with r7 := v }

/-- `SP`: the index of the register used as the stack pointer (R5, R16). -/
abbrev sp : RegIdx := 7

/-- `R[i]` (R14). -/
def State.reg (s : State) (i : RegIdx) : Byte := s.regs.get i

/-- `R[i] <- v` (R15). -/
def State.setReg (s : State) (i : RegIdx) (v : Byte) : State := { s with regs := s.regs.set i v }

/-- `PC <- t` (R18). -/
def State.setPc (s : State) (t : Byte) : State := { s with pc := t }

/-- `FL <- v`, all 8 bits (R22). -/
def State.setFl (s : State) (v : Byte) : State := { s with fl := v }

/-- Replace the memory. -/
def State.setMem (s : State) (m : Memory) : State := { s with mem := m }

/-- `STATUS <- x` (R24). -/
def State.setStatus (s : State) (x : Status) : State := { s with status := x }

/-- `Emit(v)`: append the byte to `OUT` (R27, R103). -/
def State.emit (s : State) (v : Byte) : State := { s with out := s.out ++ [v] }

/-! ### Raising a fatal error (60_exceptions.md R171, R172) -/

/-- The work of an instruction on its private copy of the state: it gives a value, or raises (R9, R95). -/
abbrev Attempt (α : Type) := Except Trap α

/-- The `REPORT` of an error: `fetched` holds the instruction's bytes that had been fetched when the error was detected, the
opcode byte first (R172). -/
def reportOf (e : Trap) (fetched : List Byte) (pc : Byte) : Report :=
  { reason := e.reason
    pc := pc
    opcode := fetched.headD 0#8
    opA := fetched[1]?
    opB := fetched[2]?
    info := e.info }

/-- `raise X(info)`, the whole of "trap entry" in this machine: the state before the instruction, with `STATUS = Fatal` and
`REPORT` written (R171). There is no handler and no return (R177). That nothing is committed: DEDUCED,
D2, log entry 11. -/
def raise (e : Trap) (fetched : List Byte) (s : State) : State :=
  { s with status := .fatal, report := some (reportOf e fetched s.pc) }

/-- End an instruction: commit its private copy, or raise on the state it started from (R90). -/
def complete (i : Instr) (s : State) (work : Attempt State) : Outcome :=
  match work with
  | .ok t => .next t
  | .error e => .next (raise e (encode i) s)

/-! ### Shared parts of the handlers -/

/-- An address that is to stand in the 8-bit PC or in a cell: it must be in `[0,256)`, it is never wrapped (R47, R88; DEDUCED:
D1, log entry 12). -/
def byteAddress (n : Nat) : Attempt Byte :=
  if n < 256 then .ok (BitVec.ofNat 8 n) else .error { reason := .outOfBounds, info := some n }

/-- `fallthrough(n)` for every instruction but HLT (R87, R88; DEDUCED: D5, log entry 6). -/
def fallThrough (n : Nat) (s : State) : Attempt State := do
  let next ← byteAddress (s.pc.toNat + n + 1)
  .ok (s.setPc next)

/-- `fallthrough(0)` for HLT: at address 255 the PC becomes 0 without error (R87, R88 (ii); DEDUCED: D6, log
entry 7). -/
def fallThroughHalt (s : State) : State := s.setPc (BitVec.ofNat 8 ((s.pc.toNat + 1) % 256))

/-- A memory read on behalf of an instruction (R41). -/
def loadByte (s : State) (a : Nat) : Attempt Byte :=
  match s.mem.read a with
  | some b => .ok b
  | none => .error { reason := .outOfBounds, info := some a }

/-- A memory write on behalf of an instruction (R42). -/
def storeByte (s : State) (a : Nat) (v : Byte) : Attempt State :=
  match s.mem.write a v with
  | some m => .ok (s.setMem m)
  | none => .error { reason := .outOfBounds, info := some a }

/-- The decrement of the stack pointer by PUSH and CALL: an integer, `StackOverflow` below `STACK_FLOOR` (R113, R173;
DEDUCED: D7, D8, log entry 14). -/
def decrementSp (s : State) : Attempt State :=
  let n : Int := ((s.reg sp).toNat : Int) - 1
  if n < (s.config.stackFloor.toNat : Int) then .error { reason := .stackOverflow, info := some n }
  else .ok (s.setReg sp (BitVec.ofInt 8 n))

/-- The increment of the stack pointer by POP and RET: an integer, `StackUnderflow` above 255 (R113, R174; DEDUCED:
D7, log entry 14). -/
def incrementSp (s : State) : Attempt State :=
  let n : Int := ((s.reg sp).toNat : Int) + 1
  if 255 < n then .error { reason := .stackUnderflow, info := some n }
  else .ok (s.setReg sp (BitVec.ofInt 8 n))

/-- Write a byte at the cell the stack pointer addresses: `MemWrite(R[7], 1, v)` (R111, R121). -/
def storeAtSp (s : State) (v : Byte) : Attempt State := storeByte s (s.reg sp).toNat v

/-- Read the byte at the cell the stack pointer addresses: `MemRead(R[7], 1)` (R112, R122). -/
def loadAtSp (s : State) : Attempt Byte := loadByte s (s.reg sp).toNat

end Sys2Proof.Machine
end

