-- ==== Sys2Proof/Machine/Flags.lean ====
section
/-! DEFINITION. The flag register FL (10_state.md R21, R22): the pattern CMP computes and the two tests the conditional jumps
make. No other instruction computes or reads a flag. -/

namespace Sys2Proof.Machine

/-- `FL_E`, `FL_G`, `FL_L` as patterns (R5, R21). -/
def flEqual : Byte := 0b001#8
def flGreater : Byte := 0b010#8
def flLess : Byte := 0b100#8

/-- `ALU(CMP, a, b)`: exactly one bit set, by unsigned comparison (44_alu.md R136, R142; DEDUCED: D15, log
entry 19). -/
def compareFlags (a b : Byte) : Byte :=
  if a.toNat = b.toNat then flEqual
  else if b.toNat < a.toNat then flGreater
  else flLess

/-- JEQ's test: bit 0 of FL is 1 (43_control_transfer.md R124). -/
def equalSet (fl : Byte) : Bool := fl.getLsbD 0

/-- JNE's test: the whole register differs from 0b00000001 (R125). -/
def notExactlyEqual (fl : Byte) : Bool := decide (fl ≠ 0x01#8)

end Sys2Proof.Machine
end

