-- ==== Sys2Proof/Machine/Alu.lean ====
section
/-! DEFINITION. The ALU (44_alu.md R136): a pure function of the operation and two bytes. The operation type is closed, so
`UnsupportedOperation` has no case (R152). Each result is computed on integers and narrowed to a byte at the end. -/

namespace Sys2Proof.Machine

/-- The twelve operations of R136. -/
inductive AluOp where
  | add | sub | mul | div | mod | cmp | and | or | xor | not | shl | shr
  deriving DecidableEq, Repr

/-- `ALU(op, a, b)`; `none` is `DivideByZero` (R136). All values unsigned (R150; DEDUCED: D15, log entry 19). NOT ignores `b`. -/
def alu (op : AluOp) (a b : Byte) : Option Byte :=
  match op with
  | .add => some (BitVec.ofNat 8 (a.toNat + b.toNat))
  | .sub => some (BitVec.ofInt 8 ((a.toNat : Int) - (b.toNat : Int)))
  | .mul => some (BitVec.ofNat 8 (a.toNat * b.toNat))
  | .div => if b.toNat = 0 then none else some (BitVec.ofNat 8 (a.toNat / b.toNat))
  | .mod => if b.toNat = 0 then none else some (BitVec.ofNat 8 (a.toNat % b.toNat))
  | .cmp => some (compareFlags a b)
  | .and => some (a &&& b)
  | .or => some (a ||| b)
  | .xor => some (a ^^^ b)
  | .not => some (BitVec.ofNat 8 (255 - a.toNat))
  | .shl => some (if b.toNat < 8 then BitVec.ofNat 8 (a.toNat * 2 ^ b.toNat) else 0#8)
  | .shr => some (if b.toNat < 8 then BitVec.ofNat 8 (a.toNat / 2 ^ b.toNat) else 0#8)

/-- The ALU's result for the engine, which raises on a zero divisor (R140, R141, R169). -/
def aluResult (op : AluOp) (a b : Byte) : Attempt Byte :=
  match alu op a b with
  | some v => .ok v
  | none => .error { reason := .divideByZero, info := none }

end Sys2Proof.Machine
end

