-- ==== Sys2Proof/Machine/Operands.lean ====
section
/-! DEFINITION. The operand forms (30_encoding.md R62, R63): a register operand is the whole operand byte, validated in
`[0,8)` and never masked; the one immediate (LDI) is the operand byte as it stands and needs no operation. -/

namespace Sys2Proof.Machine

/-- Validate one register operand: formats `R` and `RI` (40_engine_cycle.md R85). -/
def registerOperand (r : Byte) : Attempt RegIdx :=
  if h : r.toNat < 8 then .ok ⟨r.toNat, h⟩
  else .error { reason := .registerIndexInvalid, info := some r.toNat }

/-- Validate two register operands, operand A first: format `RR` (R85). -/
def registerOperands (a b : Byte) : Attempt (RegIdx × RegIdx) := do
  let i ← registerOperand a
  let j ← registerOperand b
  .ok (i, j)

end Sys2Proof.Machine
end

