-- ==== Sys2Proof/Machine/AluInstructions.lean ====
section
/-! DEFINITION. The twelve ALU instructions (44_alu.md). Both source registers are read before the destination is written
(R151); only CMP writes FL, and CMP writes no register (R135, R142). -/

namespace Sys2Proof.Machine

/-- `regA ← ALU(op, regA, regB); fallthrough(2)`: the common shape of the ten two-register operations that write a
register (R135). -/
def aluTwoRegisters (op : AluOp) (a b : Byte) (s : State) : Attempt State := do
  let (i, j) ← registerOperands a b
  let v ← aluResult op (s.reg i) (s.reg j)
  fallThrough 2 (s.setReg i v)

/-- ADD: `regA ← ALU(ADD, regA, regB)` (R137). -/
def execAdd (a b : Byte) (s : State) : Outcome := complete (.add a b) s (aluTwoRegisters .add a b s)

/-- SUB: `regA ← ALU(SUB, regA, regB)` (R138). -/
def execSub (a b : Byte) (s : State) : Outcome := complete (.sub a b) s (aluTwoRegisters .sub a b s)

/-- MUL: `regA ← ALU(MUL, regA, regB)` (R139). -/
def execMul (a b : Byte) (s : State) : Outcome := complete (.mul a b) s (aluTwoRegisters .mul a b s)

/-- DIV: `regA ← ALU(DIV, regA, regB)`: raises `DivideByZero` when the divisor register holds 0 (R140). -/
def execDiv (a b : Byte) (s : State) : Outcome := complete (.div a b) s (aluTwoRegisters .div a b s)

/-- MOD: `regA ← ALU(MOD, regA, regB)`: raises `DivideByZero` when the divisor register holds 0 (R141). -/
def execMod (a b : Byte) (s : State) : Outcome := complete (.mod a b) s (aluTwoRegisters .mod a b s)

/-- CMP: `FL <- ALU(CMP, regA, regB)`, all 8 bits replaced; `fallthrough(2)` (R142). -/
def execCmp (a b : Byte) (s : State) : Outcome :=
  complete (.cmp a b) s do
    let (i, j) ← registerOperands a b
    let v ← aluResult .cmp (s.reg i) (s.reg j)
    fallThrough 2 (s.setFl v)

/-- AND: `regA ← ALU(AND, regA, regB)` (R143). -/
def execAnd (a b : Byte) (s : State) : Outcome := complete (.and a b) s (aluTwoRegisters .and a b s)

/-- OR: `regA ← ALU(OR, regA, regB)` (R144). -/
def execOr (a b : Byte) (s : State) : Outcome := complete (.or a b) s (aluTwoRegisters .or a b s)

/-- XOR: `regA ← ALU(XOR, regA, regB)` (R145). -/
def execXor (a b : Byte) (s : State) : Outcome := complete (.xor a b) s (aluTwoRegisters .xor a b s)

/-- NOT: `regA ← ALU(NOT, regA, regA); fallthrough(1)`, the one ALU instruction with one operand (R146). -/
def execNot (a : Byte) (s : State) : Outcome :=
  complete (.not a) s do
    let i ← registerOperand a
    let v ← aluResult .not (s.reg i) (s.reg i)
    fallThrough 1 (s.setReg i v)

/-- SHL: `regA ← ALU(SHL, regA, regB)`: an amount of 8 or more gives 0 (R147). -/
def execShl (a b : Byte) (s : State) : Outcome := complete (.shl a b) s (aluTwoRegisters .shl a b s)

/-- SHR: `regA ← ALU(SHR, regA, regB)`: logical, an amount of 8 or more gives 0 (R148). -/
def execShr (a b : Byte) (s : State) : Outcome := complete (.shr a b) s (aluTwoRegisters .shr a b s)

end Sys2Proof.Machine
end

