-- ==== Sys2Proof/Machine/ControlTransfer.lean ====
section
/-! DEFINITION. CALL, RET, JMP, JEQ, JNE (43_control_transfer.md): targets are absolute and come from a register or, for RET,
from the stack; an instruction that assigns PC gets no increment (R120). -/

namespace Sys2Proof.Machine

/-- `PC <- R[i]` (R120). -/
def jumpTo (i : RegIdx) (s : State) : State := s.setPc (s.reg i)

/-- CALL: `push(PC+2); PC←reg's value`. The stack check comes first, then the return address's range; the target register is
read after the decrement (R121; DEDUCED: D10, log entry 8, and D11, log entry 9). -/
def execCall (r : Byte) (s : State) : Outcome :=
  complete (.call r) s do
    let i ← registerOperand r
    let t ← decrementSp s
    let ret ← byteAddress (s.pc.toNat + 2)
    let u ← storeAtSp t ret
    .ok (jumpTo i u)

/-- RET: `PC←pop()` (R122). -/
def execRet (s : State) : Outcome :=
  complete .ret s do
    let target ← loadAtSp s
    let t ← incrementSp s
    .ok (t.setPc target)

/-- JMP: `PC <- R[opA]` (R123). -/
def execJmp (r : Byte) (s : State) : Outcome :=
  complete (.jmp r) s do
    let i ← registerOperand r
    .ok (jumpTo i s)

/-- JEQ: jump if bit 0 of FL is set, else fall through (R124). -/
def execJeq (r : Byte) (s : State) : Outcome :=
  complete (.jeq r) s do
    let i ← registerOperand r
    if equalSet s.fl then .ok (jumpTo i s) else fallThrough 1 s

/-- JNE: jump if FL differs from 0x01, else fall through (R125). -/
def execJne (r : Byte) (s : State) : Outcome :=
  complete (.jne r) s do
    let i ← registerOperand r
    if notExactlyEqual s.fl then .ok (jumpTo i s) else fallThrough 1 s

end Sys2Proof.Machine
end

