-- ==== Sys2Proof/Machine/LoadPrintHalt.lean ====
section
/-! DEFINITION. LDI, PRN, HLT (41_load_print_halt.md). -/

namespace Sys2Proof.Machine

/-- LDI: `R[opA] <- opB; fallthrough(2)` (R101). -/
def execLdi (r imm : Byte) (s : State) : Outcome :=
  complete (.ldi r imm) s do
    let d ← registerOperand r
    fallThrough 2 (s.setReg d imm)

/-- PRN: `Emit(R[opA]); fallthrough(1)` (R102). -/
def execPrn (r : Byte) (s : State) : Outcome :=
  complete (.prn r) s do
    let i ← registerOperand r
    fallThrough 1 (s.emit (s.reg i))

/-- HLT: `fallthrough(0)`, then `STATUS <- Halted` (R104, R89). -/
def execHlt (s : State) : Outcome :=
  complete .hlt s (.ok ((fallThroughHalt s).setStatus .halted))

end Sys2Proof.Machine
end

