-- ==== Sys2Proof/Machine/Stack.lean ====
section
/-! DEFINITION. PUSH and POP (42_stack.md). -/

namespace Sys2Proof.Machine

/-- PUSH: `SP←SP−1; Memory[SP]←reg`, the register read after the decrement (R111; DEDUCED: D10, log entry 8). -/
def execPush (r : Byte) (s : State) : Outcome :=
  complete (.push r) s do
    let i ← registerOperand r
    let t ← decrementSp s
    let u ← storeAtSp t (t.reg i)
    fallThrough 1 u

/-- POP: `reg←Memory[SP]; SP←SP+1`, the stack pointer read again after the register is written (R112; DEDUCED: D10, log
entry 8). -/
def execPop (r : Byte) (s : State) : Outcome :=
  complete (.pop r) s do
    let i ← registerOperand r
    let v ← loadAtSp s
    let t ← incrementSp (s.setReg i v)
    fallThrough 1 t

end Sys2Proof.Machine
end

