-- ==== Sys2Proof/Machine/Fetch.lean ====
section
/-! DEFINITION. Fetch and decode (40_engine_cycle.md R82 to R84), and the placing of bytes where the next fetch reads. -/

namespace Sys2Proof.Machine

/-- The bytes one cycle reads: the opcode byte at PC, then exactly as many operand bytes as it takes, stopping before an
address outside `[0,256)`; addresses are not wrapped (R82, R84, R47; DEDUCED: D28, log
entry 25). -/
def fetchBytes (s : State) : List Byte :=
  s.mem.readUpTo s.pc.toNat (fetchLength (s.mem.get s.pc.toNat))

/-- What a failed decode raises: an unknown opcode, or the operand fetch outside `[0,256)` (R83, R84, R167, R170). -/
def fetchTrap (pc : Byte) (e : DecodeError) : Trap :=
  match e with
  | .noBytes => { reason := .outOfBounds, info := some pc.toNat }
  | .unknownInstruction opcode => { reason := .unknownInstruction, info := some opcode.toNat }
  | .missingOperandA => { reason := .outOfBounds, info := some (pc.toNat + 1) }
  | .missingOperandB => { reason := .outOfBounds, info := some (pc.toNat + 2) }

/-- Fetch and decode the instruction at PC, or raise (R82 to R84). -/
def fetch (s : State) : Attempt Instr :=
  match decode (fetchBytes s) with
  | .ok (i, _) => .ok i
  | .error e => .error (fetchTrap s.pc e)

/-- The state in which the next fetch reads these bytes: they stand at PC and after it (those whose address exists), and the
engine is running, without the report of an error (DESIGN CHOICE: log entry 10, how a program comes to run). -/
def placeAtPc (s : State) (bytes : List Byte) : State :=
  { s with mem := s.mem.place s.pc.toNat bytes, status := .running, report := none }

end Sys2Proof.Machine
end

