-- ==== Sys2Proof/Machine/Step.lean ====
section
/-! DEFINITION. One step of the engine (40_engine_cycle.md R95), and the host's way to make it run a given instruction. -/

namespace Sys2Proof.Machine

/-- One instruction, or nothing in a terminal status (R80, R81, R95, R206; DESIGN CHOICE: the same state, log entry 4). -/
def step (s : State) : Host.Outcome State Fault Refusal :=
  match s.status with
  | .running =>
    match fetch s with
    | .ok i => exec i s
    | .error e => .next (raise e (fetchBytes s) s)
  | .halted => .next s
  | .fatal => .next s

/-- The state `s` with the instruction whose bits are `w` (numbered as the opcode table numbers them) standing where `step`
fetches its next instruction, all three bytes of the longest form (DESIGN CHOICE: log entry 10). -/
def State.withFetchWord (s : State) (nbits w : Nat) : State := placeAtPc s (tableWordBytes nbits w)

end Sys2Proof.Machine
end

