-- ==== Sys2Proof/Machine/HostApi.lean ====
section
/-! DEFINITION. The engine-facing interface the host drives (70_reset_and_hazards.md R195 to R208): `reset()`, `load_bytes`,
`run()`, `read_register`, `read_memory`. It stands around the machine: nothing here is part of a step. -/

namespace Sys2Proof.Machine

/-- The engine as its host has it: the machine's state, and whether a step has been taken since `reset()`, which decides
whether `load_bytes` is still legal (R203; DEDUCED: D14, log entry 18). -/
structure Session where
  core : State
  begun : Bool
  deriving DecidableEq, Repr

/-- `RunResult{Halted | Fatal(reason)}` (R195, R205). -/
inductive RunResult where
  | halted
  | fatal (reason : FatalReason)
  deriving DecidableEq, Repr

/-- The state `reset()` leaves, on the same platform (R196). -/
def State.resetOn (c : Config) : State := { State.reset with config := c }

/-- `reset()`: legal in any status, always succeeds (R196). Power-on leaves the same (R198). -/
def Session.reset (h : Session) : Session := { core := State.resetOn h.core.config, begun := false }

/-- `load_bytes(start_address, bytes)`: all or nothing, only before the first step since `reset()` (R203, R204, D14). The
first address outside `[0,256)` is the one reported (DESIGN CHOICE, log entry 18). The start address is a
natural number: a negative one cannot be put to the call (DESIGN CHOICE, log entry 29). -/
def Session.loadBytes (start : Nat) (bytes : List Byte) (h : Session) : Host.Outcome Session Fault Refusal :=
  if h.begun || decide (h.core.status ≠ .running) || decide (h.core.pc ≠ 0#8) then .refused .loadAfterStart
  else if 256 ≤ start then .fault (.outOfBounds start)
  else if 256 < start + bytes.length then .fault (.outOfBounds 256)
  else .next { h with core := h.core.setMem (h.core.mem.place start bytes) }

/-- What `run()` returns in a terminal status; none while running (R92, R205). -/
def State.runResult (s : State) : Option RunResult :=
  match s.status with
  | .running => none
  | .halted => some .halted
  | .fatal => s.report.map (fun r => .fatal r.reason)

/-- Steps while `STATUS = Running`, at most `fuel` of them. -/
def runSteps : Nat → State → State
  | 0, s => s
  | n + 1, s =>
    match s.status with
    | .running =>
      match step s with
      | .next t => runSteps n t
      | .fault _ => s
      | .refused _ => s
    | .halted => s
    | .fatal => s

/-- `run()` observed for at most `fuel` instructions: its result and the session after it, or none where it has not returned
within them (the machine itself has no limit: R92, R205; DESIGN CHOICE: fuel, log
entry 21). In a terminal status it returns at once (R206). -/
def Session.run (fuel : Nat) (h : Session) : Option (RunResult × Session) :=
  let t := runSteps fuel h.core
  t.runResult.map (fun r => (r, { core := t, begun := true }))

/-- `read_register(i)` (R207), for a natural number `i` (DESIGN CHOICE, log entry 29). -/
def State.readRegister (s : State) (i : Nat) : Except Fault Byte :=
  if h : i < 8 then .ok (s.reg ⟨i, h⟩) else .error (.registerIndexInvalid i)

/-- `read_memory(addr)` (R207), for a natural number `addr` (DESIGN CHOICE, log entry 29). -/
def State.readMemory (s : State) (a : Nat) : Except Fault Byte :=
  match s.mem.read a with
  | some b => .ok b
  | none => .error (.outOfBounds a)

end Sys2Proof.Machine
end

