-- ==== Sys2Proof/Safety.lean ====
section
/-! DEFINITION. What claims about the machine are stated in: its invariant, and the vocabulary of frames (what a next state
has in common with the state before). -/

namespace Sys2Proof.Machine

/-- At every instruction boundary FL is 0x00, 0x01, 0x02 or 0x04 (10_state.md R23). -/
abbrev State.flLegal (s : State) : Prop := s.fl = 0x00#8 ∨ s.fl = 0x01#8 ∨ s.fl = 0x02#8 ∨ s.fl = 0x04#8

/-- `REPORT` is present exactly in the status `Fatal` (R25, R171). -/
abbrev State.reportMatches (s : State) : Prop := s.status = .fatal ↔ s.report.isSome = true

/-- The invariant of the machine: memory in its canonical form, a legal FL, a report exactly when fatal. -/
abbrev State.Inv (s : State) : Prop := s.mem.wf = true ∧ s.flLegal ∧ s.reportMatches

/-- A terminal status: the engine executes nothing (R24, R80). -/
abbrev State.terminal (s : State) : Prop := s.status ≠ .running

/-- The operand byte names the register. -/
abbrev Names (r : Byte) (i : RegIdx) : Prop := r.toNat = i.val

/-- Every register but those listed is unchanged. -/
abbrev SameRegsExcept (ds : List RegIdx) (s t : State) : Prop := ∀ i, i ∉ ds → t.reg i = s.reg i

/-- Every byte of memory reads as before. -/
abbrev SameMemory (s t : State) : Prop := ∀ a, t.mem.read a = s.mem.read a

/-- Every byte of memory but the one at `a` reads as before. -/
abbrev SameMemoryExcept (a : Nat) (s t : State) : Prop := ∀ b, b ≠ a → t.mem.read b = s.mem.read b

/-- Status, report, output and the platform's parameter are unchanged. -/
abbrev SameEngine (s t : State) : Prop :=
  t.status = s.status ∧ t.report = s.report ∧ t.out = s.out ∧ t.config = s.config

/-- Nothing of the instruction is committed: `R`, `PC`, `FL`, `M`, `OUT` are as they were (R90, R171). -/
abbrev CommitsNothing (s t : State) : Prop :=
  (∀ i, t.reg i = s.reg i) ∧ t.pc = s.pc ∧ t.fl = s.fl ∧ SameMemory s t ∧ t.out = s.out ∧ t.config = s.config

/-- The run is over with this report (R171). -/
abbrev FatalWith (r : Report) (t : State) : Prop := t.status = .fatal ∧ t.report = some r

/-- The report of an error at the state's PC: the opcode byte, the operand bytes fetched so far, in order, and the info (R172). -/
def reportAt (s : State) (reason : FatalReason) (opcode : Byte) (operands : List Byte) (info : Option Int) : Report :=
  { reason := reason
    pc := s.pc
    opcode := opcode
    opA := operands[0]?
    opB := operands[1]?
    info := info }

/-- The 22 opcode bytes of 30_encoding.md R64, in the table's order. -/
def opcodeBytes : List Nat :=
  [0x82, 0x47, 0x01, 0x45, 0x46, 0x50, 0x11, 0x54, 0x55, 0x56, 0xA0] ++
  [0xA1, 0xA2, 0xA3, 0xA4, 0xA7, 0xA8, 0xAA, 0xAB, 0x69, 0xAC, 0xAD]

/-! ### Which error an instruction raises, in the order of 60_exceptions.md R175 (items 4 to 7: the instruction is fetched) -/

/-- The register an operand byte names; 0 where it names none. -/
def State.regAt (s : State) (r : Byte) : Byte := if h : r.toNat < 8 then s.reg ⟨r.toNat, h⟩ else 0#8

/-- `RegisterIndexInvalid` of one register operand (R168). -/
def indexError (r : Byte) : Option Trap :=
  if 7 < r.toNat then some { reason := .registerIndexInvalid, info := some r.toNat } else none

/-- `DivideByZero` of DIV and MOD (R169). -/
def divisorError (b : Byte) (s : State) : Option Trap :=
  if s.regAt b = 0#8 then some { reason := .divideByZero, info := none } else none

/-- `StackOverflow` of PUSH and CALL (R173). -/
def overflowError (s : State) : Option Trap :=
  if ((s.reg 7).toNat : Int) - 1 < s.config.stackFloor.toNat then
    some { reason := .stackOverflow, info := some (((s.reg 7).toNat : Int) - 1) }
  else none

/-- `StackUnderflow` when this value of the stack pointer is incremented (R174). -/
def underflowError (pointer : Byte) : Option Trap :=
  if pointer.toNat = 255 then some { reason := .stackUnderflow, info := some 256 } else none

/-- The value POP increments: the popped byte for `POP R7`, else the stack pointer (R112, R174). -/
def popPointer (r : Byte) (s : State) : Byte :=
  if r.toNat = 7 then s.mem.get (s.reg 7).toNat else s.reg 7

/-- `OutOfBounds` of the address `n` bytes past the opcode byte: the advance, and CALL's return address (R88, R121, R167). -/
def pastTopError (n : Nat) (s : State) : Option Trap :=
  if 255 < s.pc.toNat + n then some { reason := .outOfBounds, info := some ((s.pc.toNat + n : Nat) : Int) } else none

/-- The error an instruction raises: the first that applies in the order of R175. -/
def firstError (i : Instr) (s : State) : Option Trap :=
  match i with
  | .ldi r _ => (indexError r).or (pastTopError 3 s)
  | .prn r => (indexError r).or (pastTopError 2 s)
  | .hlt => none
  | .push r => ((indexError r).or (overflowError s)).or (pastTopError 2 s)
  | .pop r => ((indexError r).or (underflowError (popPointer r s))).or (pastTopError 2 s)
  | .call r => ((indexError r).or (overflowError s)).or (pastTopError 2 s)
  | .ret => underflowError (s.reg 7)
  | .jmp r => indexError r
  | .jeq r => (indexError r).or (if s.fl.getLsbD 0 then none else pastTopError 2 s)
  | .jne r => (indexError r).or (if s.fl ≠ 0x01#8 then none else pastTopError 2 s)
  | .add a b => ((indexError a).or (indexError b)).or (pastTopError 3 s)
  | .sub a b => ((indexError a).or (indexError b)).or (pastTopError 3 s)
  | .mul a b => ((indexError a).or (indexError b)).or (pastTopError 3 s)
  | .div a b => (((indexError a).or (indexError b)).or (divisorError b s)).or (pastTopError 3 s)
  | .mod a b => (((indexError a).or (indexError b)).or (divisorError b s)).or (pastTopError 3 s)
  | .cmp a b => ((indexError a).or (indexError b)).or (pastTopError 3 s)
  | .and a b => ((indexError a).or (indexError b)).or (pastTopError 3 s)
  | .or a b => ((indexError a).or (indexError b)).or (pastTopError 3 s)
  | .xor a b => ((indexError a).or (indexError b)).or (pastTopError 3 s)
  | .not a => (indexError a).or (pastTopError 2 s)
  | .shl a b => ((indexError a).or (indexError b)).or (pastTopError 3 s)
  | .shr a b => ((indexError a).or (indexError b)).or (pastTopError 3 s)

end Sys2Proof.Machine
end

