-- ==== Sys2Proof/Certificates/Slice0/Obligations.lean ====
section
/-! DEFINITION. The statements for the provers, from the numbered rules of spec/. A docstring says which rule a statement
formalises; its last sentence names every decision the spec marks as its own (D<n> of 92_eei_decisions.md) and every choice
of the model that the statement rests on, with the log entries. `Names r i` reads "operand byte `r` names register `i`";
register operands of 8 and above are the subject of `InvalidRegisterIndexIsRaisedExactlyForIllFormed` and
`ErrorsAreRaisedInTheSpecsOrder`. -/

open Sys2Proof Sys2Proof.Machine

/-! ### Encoding -/

/-- Decoding an encoded instruction gives it back, every operand byte at every value (R60, R62, R64, R70). Rests on the
model's own log entry 5. -/
def Obligations.DecodeOfEncodeGivesTheInstruction : Prop :=
  ∀ (i : Instr) (rest : List Byte), decode (encode i ++ rest) = .ok (i, rest)

/-- Bytes that decode are the encoding of what they decode to, with the rest behind it: each word has one meaning. Rests on
the model's own log entry 5. -/
def Obligations.DecodedBytesAreTheEncoding : Prop :=
  ∀ (bs rest : List Byte) (i : Instr), decode bs = .ok (i, rest) → bs = encode i ++ rest

/-- R65: a byte selects an instruction if and only if it is one of the 22 values of R64, all 8 bits. -/
def Obligations.ExactlyTheTableOpcodesSelectAnInstruction : Prop :=
  ∀ (op a b : Byte), (∃ i rest, decode [op, a, b] = .ok (i, rest)) ↔ op.toNat ∈ opcodeBytes

/-- R67: a known instruction is as long as its opcode's bits 7:6 say, plus one; never longer than 3 bytes. -/
def Obligations.LengthIsTheCountFieldPlusOne : Prop :=
  ∀ (op : Byte) (bs rest : List Byte) (i : Instr), decode (op :: bs) = .ok (i, rest) →
    (op :: bs).length = rest.length + (op.extractLsb' 6 2).toNat + 1 ∧ (op.extractLsb' 6 2).toNat ≤ 2

/-- A few words written out from the table R64, the first of them the program of T7. Rests on the spec's own decision D4,
with 90_conflicts.md C12 (log entry 13). -/
def Obligations.WordsOfTheTableDecode : Prop :=
  decode [0x82#8, 0x00#8, 0x08#8, 0x47#8, 0x00#8, 0x01#8] = .ok (.ldi 0#8 8#8, [0x47#8, 0x00#8, 0x01#8]) ∧
  decode [0x47#8, 0x00#8, 0x01#8] = .ok (.prn 0#8, [0x01#8]) ∧
  decode [0x01#8] = .ok (.hlt, []) ∧
  decode [0x45#8, 0x07#8] = .ok (.push 7#8, []) ∧
  decode [0x50#8, 0x01#8] = .ok (.call 1#8, []) ∧
  decode [0x11#8] = .ok (.ret, []) ∧
  decode [0xA7#8, 0x03#8, 0x04#8] = .ok (.cmp 3#8 4#8, []) ∧
  decodeTableWord 24 0x0504A3 = some (.div 4#8 5#8) ∧
  decode [0x02#8, 0x00#8, 0x08#8] = .error (.unknownInstruction 0x02#8) ∧
  decode [0xC1#8] = .error (.unknownInstruction 0xC1#8)

/-! ### The cycle -/

/-- When the bytes at PC are those of an instruction, well-formed or not, the step is that instruction's meaning and nothing
around it (R81, R82, R84, R86, R95). D28 (exactly as many operand bytes are read as the opcode says) gives HLT and RET at
254 and 255, and a 2-byte instruction at 254. Rests on the spec's own decision D28 (log entry 25) and on the model's own log
entry 5. -/
def Obligations.StepRunsTheInstructionAtPc : Prop :=
  ∀ (s : State) (i : Instr), s.status = .running →
    (∀ k, (hk : k < (encode i).length) → s.mem.read (s.pc.toNat + k) = some (encode i)[k]) →
    step s = exec i s

/-- The words the host places run: after `withFetchWord` the step is the meaning of what the decoder reads from the word,
wherever all three bytes have an address (the model's reading of a program loaded from outside; log entry 10). Rests on the
model's own log entry 10. -/
def Obligations.PlacedWordRunsAsItDecodes : Prop :=
  ∀ (s : State) (i : Instr) (nbits w : Nat), s.pc.toNat ≤ 253 → decodeTableWord nbits w = some i →
    step (s.withFetchWord nbits w) = exec i (s.withFetchWord nbits w)

/-- R80: in a terminal status the engine does nothing; R206 (D22). The model answers with the same state (log entry 4).
Rests on the spec's own decision D22 (log entry 4) and on the model's own log entry 4. -/
def Obligations.TerminalStatusDoesNothing : Prop :=
  ∀ s : State, s.terminal → step s = .next s

/-- R95: the step is a total function of the state; the machine has no stuck state, no fault and no refusal (log entry 3).
Rests on the spec's own decision D22 (log entry 4) and on the model's own log entry 3. -/
def Obligations.EveryStepGivesANextState : Prop :=
  ∀ s : State, ∃ t, step s = .next t

/-- R68: each of the 234 bytes outside R64 is unknown; it is fatal and stops the engine and is not skipped. D4 gives the
reason at PC 254 and 255, where an operand fetch could fail; that the stopped engine answers with the same state is the
model's choice (log entry 4). Rests on the spec's own decisions D4, D22 and D23, with 90_conflicts.md C12 (log entries 4, 13
and 22) and on the model's own log entry 3. -/
def Obligations.UnknownOpcodeIsFatalNotSkipped : Prop :=
  ((List.range 256).filter (fun b => decide (b ∉ opcodeBytes))).length = 234 ∧
  ∀ (s : State) (op : Byte), s.status = .running → s.mem.read s.pc.toNat = some op → op.toNat ∉ opcodeBytes →
    ∃ t r, step s = .next t ∧ FatalWith r t ∧ r.reason = .unknownInstruction ∧ step t = .next t

/-- R83, R170 with the report of R172 and the atomicity of R90 (D2, D4, D23): at an unknown opcode no operand is read, the
report holds the byte, and nothing is committed. Rests on the spec's own decisions D2, D4 and D23, with 90_conflicts.md C12
(log entries 11, 13 and 22) and on the model's own log entry 3. -/
def Obligations.UnknownOpcodeReport : Prop :=
  ∀ (s : State) (op : Byte), s.status = .running → s.mem.read s.pc.toNat = some op → op.toNat ∉ opcodeBytes →
    ∃ t, step s = .next t ∧ CommitsNothing s t ∧
      FatalWith (reportAt s .unknownInstruction op [] (some op.toNat)) t

/-- R84, R167 (i) (D1, D28, D23): an operand byte beyond address 255 is `OutOfBounds(256)`; operand A at PC = 255, operand B
(after operand A was fetched) at PC = 254, there before an operand A above 7 is looked at (D3). Rests on the spec's own
decisions D1, D2, D3, D23 and D28 (log entries 11, 12, 13, 22 and 25) and on the model's own log entry 3. -/
def Obligations.OperandFetchPastTheTopIsOutOfBounds : Prop :=
  ∀ (s : State) (op : Byte), s.status = .running → s.mem.read s.pc.toNat = some op → op.toNat ∈ opcodeBytes →
    ((s.pc = 255#8 ∧ 1 ≤ (op.extractLsb' 6 2).toNat → ∃ t, step s = .next t ∧ CommitsNothing s t ∧
      FatalWith (reportAt s .outOfBounds op [] (some 256)) t) ∧
    (s.pc = 254#8 ∧ (op.extractLsb' 6 2).toNat = 2 → ∀ a, s.mem.read 255 = some a → ∃ t, step s = .next t ∧
      CommitsNothing s t ∧
      FatalWith (reportAt s .outOfBounds op [a] (some 256)) t))

/-- R90, R171, R172 over every instruction and every error (D2, D23): when a step of a running engine ends in `Fatal`, the
failing instruction has committed nothing, the report names its address and its bytes, and the engine stays stopped (it
answers with the same state: log entry 4). Rests on the spec's own decisions D2, D22 and D23 (log entries 4, 11 and 22) and
on the model's own log entry 3. -/
def Obligations.AFailingInstructionCommitsNothing : Prop :=
  ∀ s t : State, s.status = .running → step s = .next t → t.status = .fatal →
    CommitsNothing s t ∧ step t = .next t ∧
    ∃ r, t.report = some r ∧ r.pc = s.pc ∧ s.mem.read s.pc.toNat = some r.opcode ∧
      (∀ a, r.opA = some a → s.mem.read (s.pc.toNat + 1) = some a) ∧
      (∀ b, r.opB = some b → s.mem.read (s.pc.toNat + 2) = some b)

/-- R175 (D3, log entry 13): an instruction raises exactly the first error that applies, in the order index A, index B, its
own check, the advance (`firstError` spells the order out per instruction), with all its bytes in the report (D23, log entry
22) and nothing committed (D2, log entry 11); with none it commits, and its status is as before, or `Halted` for HLT.
Further decisions stand in `firstError`: sums that do not wrap (D1), the advance (D5), HLT without error at address 255
(D6), the names of the two stack errors and the floor (D7, D8), the pointer POP R7 increments (D10), CALL's return address
(D11). Rests on the spec's own decisions D1, D2, D3, D5, D6, D7, D8, D10, D11 and D23 (log entries 6, 7, 8, 9, 11, 12, 13,
14 and 22) and on the model's own log entries 3 and 5. -/
def Obligations.ErrorsAreRaisedInTheSpecsOrder : Prop :=
  ∀ (i : Instr) (s : State),
    (∀ e, firstError i s = some e → ∃ t, exec i s = .next t ∧ CommitsNothing s t ∧
      FatalWith (reportAt s e.reason ((encode i).headD 0#8) (encode i).tail e.info) t) ∧
    (firstError i s = none → ∃ t, exec i s = .next t ∧ t.report = s.report ∧
      ((i = .hlt ∧ t.status = .halted) ∨ (i ≠ .hlt ∧ t.status = s.status)))

/-! ### LDI, PRN, HLT -/

/-- R101: LDI writes its immediate, unmodified, and advances by 3; the frame. R7 is a destination like any other. -/
def Obligations.LdiLoadsItsImmediate : Prop :=
  ∀ (s : State) (r imm : Byte) (d : RegIdx), Names r d → s.pc.toNat ≤ 252 →
    ∃ t, exec (.ldi r imm) s = .next t ∧ t.reg d = imm ∧ SameRegsExcept [d] s t ∧
      t.pc.toNat = s.pc.toNat + 3 ∧ t.fl = s.fl ∧ SameMemory s t ∧ SameEngine s t

/-- R102: PRN appends its register's byte to OUT and advances by 2; no register, flag or memory cell changes (OUT: D13).
Rests on the spec's own decision D13 (log entry 17). -/
def Obligations.PrnEmitsItsRegister : Prop :=
  ∀ (s : State) (r : Byte) (i : RegIdx), Names r i → s.pc.toNat ≤ 253 →
    ∃ t, exec (.prn r) s = .next t ∧ t.out = s.out ++ [s.reg i] ∧ SameRegsExcept [] s t ∧
      t.pc.toNat = s.pc.toNat + 2 ∧ t.fl = s.fl ∧ SameMemory s t ∧
      t.status = s.status ∧ t.report = s.report ∧ t.config = s.config

/-- R104: HLT halts, from every state, and advances PC by one, to 0 from address 255 (the PC: the spec's own decision D6,
log entry 7); registers, flags, memory and OUT are left as they were. Rests on the spec's own decision D6 (log entry 7). -/
def Obligations.HltHalts : Prop :=
  ∀ s : State, ∃ t, exec .hlt s = .next t ∧ t.status = .halted ∧ t.pc.toNat = (s.pc.toNat + 1) % 256 ∧
    SameRegsExcept [] s t ∧ t.fl = s.fl ∧ SameMemory s t ∧ t.report = s.report ∧ t.out = s.out ∧ t.config = s.config

/-! ### PUSH, POP -/

/-- R111, R113: PUSH writes the register at `R[7] - 1` and leaves `R[7]` there; `PUSH R7` stores the decremented pointer
(D10, log entry 8). Completes exactly where neither the stack check nor the advance raises (`STACK_FLOOR`: D8). Rests on the
spec's own decisions D8 and D10 (log entries 8 and 14). -/
def Obligations.PushStoresBelowTheStackPointer : Prop :=
  ∀ (s : State) (r : Byte) (i : RegIdx), Names r i → s.config.stackFloor.toNat < (s.reg 7).toNat → s.pc.toNat ≤ 253 →
    ∃ t, exec (.push r) s = .next t ∧ (t.reg 7).toNat + 1 = (s.reg 7).toNat ∧ SameRegsExcept [7] s t ∧
      t.mem.read ((s.reg 7).toNat - 1) = some (if i = 7 then s.reg 7 - 1#8 else s.reg i) ∧
      SameMemoryExcept ((s.reg 7).toNat - 1) s t ∧
      t.pc.toNat = s.pc.toNat + 2 ∧ t.fl = s.fl ∧ SameEngine s t

/-- R112, R113 for a destination other than R7: the register gets the byte at `R[7]`, `R[7]` is incremented; the cell is not
cleared. -/
def Obligations.PopLoadsAndIncrements : Prop :=
  ∀ (s : State) (r : Byte) (d : RegIdx), Names r d → d ≠ 7 → (s.reg 7).toNat < 255 → s.pc.toNat ≤ 253 →
    ∃ t, exec (.pop r) s = .next t ∧ some (t.reg d) = s.mem.read (s.reg 7).toNat ∧
      (t.reg 7).toNat = (s.reg 7).toNat + 1 ∧ SameRegsExcept [d, 7] s t ∧
      t.pc.toNat = s.pc.toNat + 2 ∧ t.fl = s.fl ∧ SameMemory s t ∧ SameEngine s t

/-- R112, `POP R7` (D10, log entry 8): load, then increment what was loaded; `StackUnderflow` only when that is 255, at any
PC (at 254 before the advance's error, D3). Rests on the spec's own decisions D1, D2, D3, D7, D10 and D23 (log entries 8,
11, 12, 13, 14 and 22) and on the model's own log entry 3. -/
def Obligations.PopOfTheStackPointerLoadsThenIncrements : Prop :=
  ∀ (s : State) (v : Byte), s.mem.read (s.reg 7).toNat = some v →
    (v.toNat < 255 → s.pc.toNat ≤ 253 → ∃ t, exec (.pop 7#8) s = .next t ∧ (t.reg 7).toNat = v.toNat + 1 ∧
      SameRegsExcept [7] s t ∧ t.pc.toNat = s.pc.toNat + 2 ∧ t.fl = s.fl ∧ SameMemory s t ∧ SameEngine s t) ∧
    (v = 255#8 → ∃ t, exec (.pop 7#8) s = .next t ∧ CommitsNothing s t ∧
      FatalWith (reportAt s .stackUnderflow 0x46#8 [7#8] (some 256)) t)

/-- R113, R173, R174: PUSH and CALL raise `StackOverflow` when the decrement would leave `STACK_FLOOR` (D7, D8), POP (of a
register other than R7) and RET raise `StackUnderflow` when the increment would leave 255; nothing is committed (D2), and
these checks come before the advance's (D3). Rests on the spec's own decisions D1, D2, D3, D7, D8 and D23 (log entries 11,
12, 13, 14 and 22) and on the model's own log entry 3. -/
def Obligations.StackBoundsAreChecked : Prop :=
  ∀ (s : State) (r : Byte) (i : RegIdx), Names r i →
    ((s.reg 7).toNat ≤ s.config.stackFloor.toNat →
      (∃ t, exec (.push r) s = .next t ∧ CommitsNothing s t ∧
        FatalWith (reportAt s .stackOverflow 0x45#8 [r] (some (((s.reg 7).toNat : Int) - 1))) t) ∧
      (∃ t, exec (.call r) s = .next t ∧ CommitsNothing s t ∧
        FatalWith (reportAt s .stackOverflow 0x50#8 [r] (some (((s.reg 7).toNat : Int) - 1))) t)) ∧
    ((s.reg 7).toNat = 255 →
      (i ≠ 7 → ∃ t, exec (.pop r) s = .next t ∧ CommitsNothing s t ∧
        FatalWith (reportAt s .stackUnderflow 0x46#8 [r] (some 256)) t) ∧
      (∃ t, exec .ret s = .next t ∧ CommitsNothing s t ∧
        FatalWith (reportAt s .stackUnderflow 0x11#8 [] (some 256)) t))

/-- R114: PUSH of one register and then POP into another (or the same), neither of them R7, carries the value over, restores
the stack pointer, and changes no other register and no cell but the one pushed to. Rests on the spec's own decision D8 (log
entry 14). -/
def Obligations.PushThenPopRoundTrips : Prop :=
  ∀ (s : State) (ra rb : Byte) (a b : RegIdx), Names ra a → Names rb b → a ≠ 7 → b ≠ 7 →
    s.config.stackFloor.toNat < (s.reg 7).toNat → s.pc.toNat ≤ 251 →
    ∃ t u, exec (.push ra) s = .next t ∧ exec (.pop rb) t = .next u ∧
      u.reg b = s.reg a ∧ u.reg 7 = s.reg 7 ∧ SameRegsExcept [b] s u ∧
      u.mem.read ((s.reg 7).toNat - 1) = some (s.reg a) ∧ SameMemoryExcept ((s.reg 7).toNat - 1) s u

/-! ### CALL, RET, JMP, JEQ, JNE -/

/-- R121: CALL stores PC + 2 at `R[7] - 1` and jumps to its register, read after the decrement (`CALL R7`: D10, log entry
8). Rests on the spec's own decisions D8 and D10 (log entries 8 and 14). -/
def Obligations.CallPushesTheReturnAddress : Prop :=
  ∀ (s : State) (r : Byte) (i : RegIdx), Names r i → s.config.stackFloor.toNat < (s.reg 7).toNat → s.pc.toNat ≤ 253 →
    ∃ t, exec (.call r) s = .next t ∧ t.pc = (if i = 7 then s.reg 7 - 1#8 else s.reg i) ∧
      (t.reg 7).toNat + 1 = (s.reg 7).toNat ∧ SameRegsExcept [7] s t ∧
      t.mem.read ((s.reg 7).toNat - 1) = some (BitVec.ofNat 8 (s.pc.toNat + 2)) ∧
      SameMemoryExcept ((s.reg 7).toNat - 1) s t ∧ t.fl = s.fl ∧ SameEngine s t

/-- R121 (D11, log entry 9): a CALL whose return address would be 256 raises `OutOfBounds(256)` and commits nothing, unless
the stack check has already raised. Rests on the spec's own decisions D1, D2, D8, D11 and D23 (log entries 9, 11, 12, 14 and
22) and on the model's own log entry 3. -/
def Obligations.CallAtTheTopHasNoReturnAddress : Prop :=
  ∀ (s : State) (r : Byte) (i : RegIdx), Names r i → s.config.stackFloor.toNat < (s.reg 7).toNat → s.pc = 254#8 →
    ∃ t, exec (.call r) s = .next t ∧ CommitsNothing s t ∧
      FatalWith (reportAt s .outOfBounds 0x50#8 [r] (some 256)) t

/-- R122: RET sets PC to the byte at `R[7]` and increments `R[7]`; memory keeps the byte. -/
def Obligations.RetPopsThePc : Prop :=
  ∀ s : State, (s.reg 7).toNat < 255 →
    ∃ t, exec .ret s = .next t ∧ some t.pc = s.mem.read (s.reg 7).toNat ∧
      (t.reg 7).toNat = (s.reg 7).toNat + 1 ∧ SameRegsExcept [7] s t ∧ t.fl = s.fl ∧ SameMemory s t ∧ SameEngine s t

/-- R126: after a CALL, a RET from any state that has the stack pointer and the pushed cell as CALL left them returns to the
instruction after the CALL's operand byte and restores the stack pointer. Rests on the spec's own decision D8 (log entry
14). -/
def Obligations.CallThenRetReturns : Prop :=
  ∀ (s : State) (r : Byte) (i : RegIdx), Names r i → s.config.stackFloor.toNat < (s.reg 7).toNat → s.pc.toNat ≤ 253 →
    ∃ t, exec (.call r) s = .next t ∧
      ∀ u : State, u.reg 7 = t.reg 7 →
        u.mem.read ((s.reg 7).toNat - 1) = t.mem.read ((s.reg 7).toNat - 1) →
        ∃ v, exec .ret u = .next v ∧ v.pc.toNat = s.pc.toNat + 2 ∧ v.reg 7 = s.reg 7

/-- R123, R120: JMP sets PC to its register, from any address, and changes nothing else. -/
def Obligations.JmpSetsThePc : Prop :=
  ∀ (s : State) (r : Byte) (i : RegIdx), Names r i →
    ∃ t, exec (.jmp r) s = .next t ∧ t.pc = s.reg i ∧ SameRegsExcept [] s t ∧ t.fl = s.fl ∧ SameMemory s t ∧
      SameEngine s t

/-- R124: JEQ tests bit 0 of FL alone; taken, PC is the register (from any address); not taken, PC + 2. -/
def Obligations.JeqTestsTheEqualBit : Prop :=
  ∀ (s : State) (r : Byte) (i : RegIdx), Names r i → (s.fl.getLsbD 0 = true ∨ s.pc.toNat ≤ 253) →
    ∃ t, exec (.jeq r) s = .next t ∧
      (if s.fl.getLsbD 0 then t.pc = s.reg i else t.pc.toNat = s.pc.toNat + 2) ∧
      SameRegsExcept [] s t ∧ t.fl = s.fl ∧ SameMemory s t ∧ SameEngine s t

/-- R125: JNE compares the whole of FL with 0x01; taken where it differs, so before any CMP too. -/
def Obligations.JneComparesTheWholeFlagRegister : Prop :=
  ∀ (s : State) (r : Byte) (i : RegIdx), Names r i → (s.fl ≠ 0x01#8 ∨ s.pc.toNat ≤ 253) →
    ∃ t, exec (.jne r) s = .next t ∧
      (if s.fl ≠ 0x01#8 then t.pc = s.reg i else t.pc.toNat = s.pc.toNat + 2) ∧
      SameRegsExcept [] s t ∧ t.fl = s.fl ∧ SameMemory s t ∧ SameEngine s t

/-- R125 corner case, 90_conflicts.md C5: on a legal FL (R23) exactly one of JEQ and JNE to a register is taken. Rests on
the spec's own decision D24 (log entry 23). -/
def Obligations.ExactlyOneOfJeqAndJneIsTaken : Prop :=
  ∀ (s : State) (r : Byte) (i : RegIdx), s.flLegal → Names r i → s.pc.toNat ≤ 253 →
    ∃ t u, exec (.jeq r) s = .next t ∧ exec (.jne r) s = .next u ∧
      ((t.pc = s.reg i ∧ u.pc.toNat = s.pc.toNat + 2) ∨ (t.pc.toNat = s.pc.toNat + 2 ∧ u.pc = s.reg i))

/-! ### The ALU instructions -/

/-- R136, the whole table of the ALU: each operation's result in its own terms, and which operation raises on what
(unsigned: the spec's own decision D15, log entry 19). Rests on the spec's own decisions D15 and D27 (log entries 19 and
24). -/
def Obligations.AluComputesItsTable : Prop :=
  ∀ a b : Byte,
    alu .add a b = some (a + b) ∧
    alu .sub a b = some (a - b) ∧
    alu .mul a b = some (a * b) ∧
    (b ≠ 0#8 → alu .div a b = some (a / b)) ∧ (b = 0#8 → alu .div a b = none) ∧
    (b ≠ 0#8 → alu .mod a b = some (a % b)) ∧ (b = 0#8 → alu .mod a b = none) ∧
    (a = b → alu .cmp a b = some 0b001#8) ∧ (b < a → alu .cmp a b = some 0b010#8) ∧
    (a < b → alu .cmp a b = some 0b100#8) ∧
    alu .and a b = some (a &&& b) ∧
    alu .or a b = some (a ||| b) ∧
    alu .xor a b = some (a ^^^ b) ∧
    alu .not a b = some (~~~a) ∧
    (b.toNat < 8 → alu .shl a b = some (a <<< b.toNat)) ∧ (8 ≤ b.toNat → alu .shl a b = some 0#8) ∧
    (b.toNat < 8 → alu .shr a b = some (a >>> b.toNat)) ∧ (8 ≤ b.toNat → alu .shr a b = some 0#8)

/-- R137 to R139, R151: ADD, SUB and MUL write the sum, difference or product modulo 256 of the two old register values to
regA and advance by 3; the frame. -/
def Obligations.AddSubMulWrapModulo256 : Prop :=
  ∀ (s : State) (a b : Byte) (i j : RegIdx), Names a i → Names b j → s.pc.toNat ≤ 252 →
    ∀ p ∈ [(Instr.add a b, s.reg i + s.reg j), (.sub a b, s.reg i - s.reg j), (.mul a b, s.reg i * s.reg j)],
      ∃ t, exec p.1 s = .next t ∧ t.reg i = p.2 ∧ SameRegsExcept [i] s t ∧
        t.pc.toNat = s.pc.toNat + 3 ∧ t.fl = s.fl ∧ SameMemory s t ∧ SameEngine s t

/-- R140, R141, R150 with a divisor that is not 0: DIV writes the unsigned floor quotient and MOD the unsigned remainder,
which satisfy `(a div b) * b + (a rem b) = a`; the frame. Rests on the spec's own decision D15 (log entry 19). -/
def Obligations.DivAndModAreUnsigned : Prop :=
  ∀ (s : State) (a b : Byte) (i j : RegIdx), Names a i → Names b j → s.reg j ≠ 0#8 → s.pc.toNat ≤ 252 →
    ∃ t u, exec (.div a b) s = .next t ∧ exec (.mod a b) s = .next u ∧
      (t.reg i).toNat = (s.reg i).toNat / (s.reg j).toNat ∧ (u.reg i).toNat = (s.reg i).toNat % (s.reg j).toNat ∧
      (t.reg i).toNat * (s.reg j).toNat + (u.reg i).toNat = (s.reg i).toNat ∧
      SameRegsExcept [i] s t ∧ t.pc.toNat = s.pc.toNat + 3 ∧ t.fl = s.fl ∧ SameMemory s t ∧ SameEngine s t ∧
      SameRegsExcept [i] s u ∧ u.pc.toNat = s.pc.toNat + 3 ∧ u.fl = s.fl ∧ SameMemory s u ∧ SameEngine s u

/-- R169: DIV and MOD with a divisor register that holds 0 terminate the run with `DivideByZero` and never write the
destination register, wherever the instruction stands. D3 gives the reason at PC 253, where the advance fails as well; that
the stopped engine answers with the same state is the model's choice (log entry 4). Rests on the spec's own decisions D3,
D22 and D23 (log entries 4, 13 and 22) and on the model's own log entry 3. -/
def Obligations.DivideByZeroTerminatesTheRun : Prop :=
  ∀ (s : State) (a b : Byte) (i j : RegIdx), Names a i → Names b j → s.reg j = 0#8 →
    ∀ x ∈ [Instr.div a b, .mod a b], ∃ t r, exec x s = .next t ∧ FatalWith r t ∧ r.reason = .divideByZero ∧
      t.reg i = s.reg i ∧ step t = .next t

/-- R143 to R145: AND, OR and XOR, bit by bit; the frame. -/
def Obligations.AndOrXorAreBitwise : Prop :=
  ∀ (s : State) (a b : Byte) (i j : RegIdx), Names a i → Names b j → s.pc.toNat ≤ 252 →
    ∀ p ∈ [(Instr.and a b, Bool.and), (.or a b, Bool.or), (.xor a b, Bool.xor)],
      ∃ t, exec p.1 s = .next t ∧
        (∀ k, k < 8 → (t.reg i).getLsbD k = p.2 ((s.reg i).getLsbD k) ((s.reg j).getLsbD k)) ∧
        SameRegsExcept [i] s t ∧ t.pc.toNat = s.pc.toNat + 3 ∧ t.fl = s.fl ∧ SameMemory s t ∧ SameEngine s t

/-- R146: NOT writes `255 - a`, every bit inverted, and advances by 2; the frame. -/
def Obligations.NotInvertsEveryBit : Prop :=
  ∀ (s : State) (a : Byte) (i : RegIdx), Names a i → s.pc.toNat ≤ 253 →
    ∃ t, exec (.not a) s = .next t ∧ (t.reg i).toNat = 255 - (s.reg i).toNat ∧
      (∀ k, k < 8 → (t.reg i).getLsbD k = !(s.reg i).getLsbD k) ∧
      SameRegsExcept [i] s t ∧ t.pc.toNat = s.pc.toNat + 2 ∧ t.fl = s.fl ∧ SameMemory s t ∧ SameEngine s t

/-- R147, R148: SHL and SHR by the whole byte in regB: below 8 the logical shift, from 8 on zero; the frame. Rests on the
spec's own decision D15 (log entry 19). -/
def Obligations.ShiftsSaturateToZero : Prop :=
  ∀ (s : State) (a b : Byte) (i j : RegIdx), Names a i → Names b j → s.pc.toNat ≤ 252 →
    ∃ t u, exec (.shl a b) s = .next t ∧ exec (.shr a b) s = .next u ∧
      (t.reg i).toNat = (if (s.reg j).toNat < 8 then (s.reg i).toNat * 2 ^ (s.reg j).toNat % 256 else 0) ∧
      (u.reg i).toNat = (if (s.reg j).toNat < 8 then (s.reg i).toNat / 2 ^ (s.reg j).toNat else 0) ∧
      SameRegsExcept [i] s t ∧ t.pc.toNat = s.pc.toNat + 3 ∧ t.fl = s.fl ∧ SameMemory s t ∧ SameEngine s t ∧
      SameRegsExcept [i] s u ∧ u.pc.toNat = s.pc.toNat + 3 ∧ u.fl = s.fl ∧ SameMemory s u ∧ SameEngine s u

/-- R142: CMP replaces all of FL by the one flag of the unsigned comparison, whatever FL held, and writes no register. Rests
on the spec's own decisions D15 and D24 (log entries 19 and 23). -/
def Obligations.CmpReplacesTheFlags : Prop :=
  ∀ (s : State) (a b : Byte) (i j : RegIdx), Names a i → Names b j → s.pc.toNat ≤ 252 →
    ∃ t, exec (.cmp a b) s = .next t ∧
      t.fl = (if (s.reg i).toNat = (s.reg j).toNat then 0x01#8
        else if (s.reg j).toNat < (s.reg i).toNat then 0x02#8 else 0x04#8) ∧
      SameRegsExcept [] s t ∧ t.pc.toNat = s.pc.toNat + 3 ∧ SameMemory s t ∧ SameEngine s t

/-! ### Errors of operands and of the advance -/

/-- R168: a running instruction raises `RegisterIndexInvalid` exactly when a register operand byte is above 7 (it is not
masked; LDI's immediate is exempt), that is, when it is not well-formed; such a byte is reported. That this check comes
before the others is the spec's own decision D3 (log entry 13). Rests on the spec's own decisions D3 and D23 (log entries 13
and 22) and on the model's own log entries 3 and 5. -/
def Obligations.InvalidRegisterIndexIsRaisedExactlyForIllFormed : Prop :=
  ∀ (i : Instr) (s : State), s.status = .running →
    ((∃ t r, exec i s = .next t ∧ FatalWith r t ∧ r.reason = .registerIndexInvalid) ↔ i.wf = false) ∧
    (∀ t r, exec i s = .next t → FatalWith r t → r.reason = .registerIndexInvalid →
      ∃ x : Byte, x ∈ (encode i).tail ∧ 7 < x.toNat ∧ r.info = some (x.toNat : Int))

/-- R87, R88 (i) (D5, log entry 6): a falling-through instruction whose next address would be 256 raises `OutOfBounds(256)`
and commits nothing; here every one of them that is well-formed and has no error of its own. Rests on the spec's own
decisions D1, D2, D5 and D23 (log entries 6, 11, 12 and 22) and on the model's own log entry 3. -/
def Obligations.AdvancePastTheTopIsOutOfBounds : Prop :=
  ∀ (s : State) (a b imm : Byte) (i j : RegIdx), Names a i → Names b j →
    (s.pc = 253#8 → ∀ x ∈ [Instr.ldi a imm, .add a b, .sub a b, .mul a b, .cmp a b, .and a b, .or a b, .xor a b, .shl a b,
        .shr a b], ∃ t r, exec x s = .next t ∧ CommitsNothing s t ∧ FatalWith r t ∧ r.reason = .outOfBounds ∧
          r.info = some 256) ∧
    (s.pc = 253#8 → s.reg j ≠ 0#8 → ∀ x ∈ [Instr.div a b, .mod a b], ∃ t r, exec x s = .next t ∧ CommitsNothing s t ∧
          FatalWith r t ∧ r.reason = .outOfBounds ∧ r.info = some 256) ∧
    (s.pc = 254#8 → ∀ x ∈ [Instr.prn a, .not a], ∃ t r, exec x s = .next t ∧ CommitsNothing s t ∧ FatalWith r t ∧
          r.reason = .outOfBounds ∧ r.info = some 256) ∧
    (s.pc = 254#8 → s.fl.getLsbD 0 = false → ∃ t r, exec (.jeq a) s = .next t ∧ CommitsNothing s t ∧ FatalWith r t ∧
          r.reason = .outOfBounds ∧ r.info = some 256) ∧
    (s.pc = 254#8 → s.fl = 0x01#8 → ∃ t r, exec (.jne a) s = .next t ∧ CommitsNothing s t ∧ FatalWith r t ∧
          r.reason = .outOfBounds ∧ r.info = some 256)

/-! ### Memory -/

/-- R41, R42: the memory contract. A read in `[0,256)` gives the byte last written there, or 0 after reset; a write sets its
cell and no other; outside `[0,256)` both raise `OutOfBounds(addr)`. -/
def Obligations.MemoryReadsWhatWasWritten : Prop :=
  (∀ a, a < 256 → loadByte State.reset a = .ok 0#8) ∧
  (∀ (s : State) (a : Nat) (v : Byte), a < 256 → ∃ t, storeByte s a v = .ok t ∧ loadByte t a = .ok v ∧
    (∀ b, b ≠ a → loadByte t b = loadByte s b) ∧ t.regs = s.regs ∧ t.pc = s.pc ∧ t.fl = s.fl ∧ SameEngine s t) ∧
  (∀ (s : State) (a : Nat) (v : Byte), 256 ≤ a → loadByte s a = .error { reason := .outOfBounds, info := some a } ∧
    storeByte s a v = .error { reason := .outOfBounds, info := some a })

/-! ### Rules of the whole machine -/

/-- The invariant holds after reset (R30, R23, R25; the canonical form of memory is the model's, log entry 2). Rests on the
spec's own decisions D23 and D24 (log entries 22 and 23) and on the model's own log entry 2. -/
def Obligations.InvariantHoldsAtReset : Prop := State.reset.Inv

/-- Every step keeps the invariant: memory canonical (log entry 2), FL one of its four values (R23), a report exactly in
`Fatal` (R25, R171). Rests on the spec's own decisions D2, D22, D23 and D24 (log entries 4, 11, 22 and 23) and on the
model's own log entries 2 and 3. -/
def Obligations.EveryStepKeepsTheInvariant : Prop :=
  ∀ s t : State, s.Inv → step s = .next t → t.Inv

/-- R22: only CMP changes FL, and it leaves one of its three patterns there. Rests on the spec's own decision D24 (log entry
23). -/
def Obligations.OnlyCmpChangesTheFlags : Prop :=
  ∀ s t : State, step s = .next t → t.fl ≠ s.fl →
    s.mem.read s.pc.toNat = some 0xA7#8 ∧ (t.fl = 0x01#8 ∨ t.fl = 0x02#8 ∨ t.fl = 0x04#8)

/-- R49 (90_conflicts.md C11): only PUSH and CALL change memory, and only the cell just below the old stack pointer. Rests
on the spec's own decision D1 (log entry 12). -/
def Obligations.OnlyPushAndCallChangeMemory : Prop :=
  ∀ (s t : State) (a : Nat), step s = .next t → t.mem.read a ≠ s.mem.read a →
    (s.mem.read s.pc.toNat = some 0x45#8 ∨ s.mem.read s.pc.toNat = some 0x50#8) ∧ a + 1 = (s.reg 7).toNat

/-- R17, the Writes column: a register that changes is R7 under PUSH, POP, CALL or RET, or the register operand A names
under LDI, POP or an ALU instruction other than CMP. -/
def Obligations.RegistersChangeAsTheTableSays : Prop :=
  ∀ (s t : State) (k : RegIdx), step s = .next t → t.reg k ≠ s.reg k → ∃ op, s.mem.read s.pc.toNat = some op ∧
    ((k = 7 ∧ op ∈ [0x45#8, 0x46#8, 0x50#8, 0x11#8]) ∨
     (s.mem.read (s.pc.toNat + 1) = some (BitVec.ofNat 8 k.val) ∧
      op ∈ [0x82#8, 0x46#8, 0xA0#8, 0xA1#8, 0xA2#8, 0xA3#8, 0xA4#8, 0xA8#8, 0xAA#8, 0xAB#8, 0x69#8, 0xAC#8, 0xAD#8]))

/-- R27, R103: OUT only grows, by one byte at a PRN, the byte of the register PRN names. Rests on the spec's own decision
D13 (log entry 17). -/
def Obligations.OutGrowsByOneByteAtPrnOnly : Prop :=
  ∀ s t : State, step s = .next t → t.out ≠ s.out →
    s.mem.read s.pc.toNat = some 0x47#8 ∧
    ∃ i : RegIdx, s.mem.read (s.pc.toNat + 1) = some (BitVec.ofNat 8 i.val) ∧ t.out = s.out ++ [s.reg i]

/-- R24, R104: a running engine becomes `Halted` in a step if and only if the opcode byte is HLT's (HLT at address 255 too,
by D6 and D28). Rests on the spec's own decisions D6 and D28 (log entries 7 and 25). -/
def Obligations.HaltedIsReachedOnlyByHlt : Prop :=
  ∀ s t : State, s.status = .running → step s = .next t →
    (t.status = .halted ↔ s.mem.read s.pc.toNat = some 0x01#8)

/-- R27: OUT has no influence on execution. A run from a state with more output before it makes the same steps, with that
output before its own. Rests on the spec's own decision D13 (log entry 17). -/
def Obligations.OutputHasNoInfluence : Prop :=
  ∀ (s t : State) (before : List Byte), step s = .next t →
    step { s with out := before ++ s.out } = .next { t with out := before ++ t.out }

/-- R5, R29: `STACK_FLOOR` is a constant of the platform, which no step changes (where it stands: the model's choice, log
entry 1). Rests on the spec's own decision D8 (log entry 14) and on the model's own log entry 1. -/
def Obligations.NoStepChangesTheStackFloor : Prop :=
  ∀ s t : State, step s = .next t → t.config = s.config

/-! ### Reset and the host's interface -/

/-- R30, R196, R199: the state after reset (memory and OUT cleared by reset: D9; REPORT absent: D23). Rests on the spec's
own decisions D9, D13 and D23 (log entries 15, 17 and 22). -/
def Obligations.ResetState : Prop :=
  (∀ i : RegIdx, State.reset.reg i = if i = 7 then 0xF4#8 else 0#8) ∧ State.reset.pc = 0#8 ∧ State.reset.fl = 0#8 ∧
  (∀ a, a < 256 → State.reset.mem.read a = some 0#8) ∧ State.reset.status = .running ∧ State.reset.report = none ∧
  State.reset.out = []

/-- R196 (D9), R206: `reset()` gives the reset state, on the same platform, from every state, and makes `load_bytes` legal.
Rests on the spec's own decisions D9, D13, D14 and D23 (log entries 15, 17, 18 and 22) and on the model's own log entry 1. -/
def Obligations.ResetWorksInEveryStatus : Prop :=
  ∀ h : Session, h.reset.core = { State.reset with config := h.core.config } ∧ h.reset.begun = false

/-- R203 (D14): before the first step `load_bytes` places exactly its bytes, in order, and changes nothing else. Rests on
the spec's own decision D14 (log entry 18) and on the model's own log entries 2 and 29. -/
def Obligations.LoadBytesPlacesTheImage : Prop :=
  ∀ (h : Session) (start : Nat) (bytes : List Byte), h.begun = false → h.core.status = .running → h.core.pc = 0#8 →
    start < 256 → start + bytes.length ≤ 256 →
    ∃ g, Session.loadBytes start bytes h = .next g ∧ g.begun = false ∧
      (∀ k, (hk : k < bytes.length) → g.core.mem.read (start + k) = some bytes[k]) ∧
      (∀ a, a < start ∨ start + bytes.length ≤ a → g.core.mem.read a = h.core.mem.read a) ∧
      g.core.regs = h.core.regs ∧ g.core.pc = h.core.pc ∧ g.core.fl = h.core.fl ∧ SameEngine h.core g.core ∧
      (h.core.mem.wf = true → g.core.mem.wf = true)

/-- R204, R203 (D14): a range that leaves `[0,256)` fails whole toward the caller, and a call after the run began is
refused; neither gives a new session. Rests on the spec's own decision D14 (log entry 18) and on the model's own log entry
29. -/
def Obligations.LoadBytesFailsWholeOrIsRefused : Prop :=
  ∀ (h : Session) (start : Nat) (bytes : List Byte),
    (h.begun = false → h.core.status = .running → h.core.pc = 0#8 → (256 ≤ start ∨ 256 < start + bytes.length) →
      ∃ a, Session.loadBytes start bytes h = .fault (.outOfBounds a) ∧ 256 ≤ a) ∧
    (h.begun = true ∨ h.core.status ≠ .running ∨ h.core.pc ≠ 0#8 →
      Session.loadBytes start bytes h = .refused .loadAfterStart)

/-- R207: `read_register` and `read_memory` give the register and the cell in range, and fail by name outside. Rests on the
spec's own decision D14 (log entry 18) and on the model's own log entry 29. -/
def Obligations.ObservationGivesRegistersAndCells : Prop :=
  ∀ (s : State) (n : Nat),
    ((h : n < 8) → s.readRegister n = .ok (s.reg ⟨n, h⟩)) ∧ (8 ≤ n → s.readRegister n = .error (.registerIndexInvalid n)) ∧
    (∀ v, s.mem.read n = some v → s.readMemory n = .ok v) ∧ (256 ≤ n → s.readMemory n = .error (.outOfBounds n))

/-- R92, R205, R206: what `run()` returns is one of its two results in a terminal status, further fuel changes neither
result nor state, and another `run()` from there returns the same at once. Rests on the spec's own decisions D20, D22 and
D23 (log entries 4, 21 and 22). -/
def Obligations.RunEndsInATerminalStatus : Prop :=
  ∀ (h g : Session) (r : RunResult) (fuel : Nat), h.run fuel = some (r, g) →
    g.core.terminal ∧ g.core.runResult = some r ∧ (∀ more, h.run (fuel + more) = some (r, g)) ∧
    (∀ n, g.run n = some (r, g))
end

