-- ==== Sys2Proof/Laws/Memory.lean ====
section
/-! SUPPORT. Memory: read after write on any list of cells, and every operation keeps the canonical form. -/

namespace Sys2Proof.Machine

/-! ### Read after write -/

theorem Memory.get_erase (m : Memory) (a b : Nat) :
    (m.erase a).get b = if b = a then 0#8 else m.get b := by
  induction m with
  | nil => simp [Memory.erase, Memory.get]
  | cons c m ih =>
    obtain ⟨k, w⟩ := c
    unfold Memory.erase at ih ⊢
    by_cases hk : k = a
    · subst hk
      by_cases hb : b = k <;> simp_all [Memory.get, eq_comm]
    · by_cases hb : b = a <;> by_cases hkb : k = b <;> simp_all [Memory.get]

theorem Memory.get_insert (m : Memory) (a b : Nat) (v : Byte) (h : ∀ c ∈ m, c.1 ≠ a) :
    (m.insert a v).get b = if b = a then v else m.get b := by
  induction m with
  | nil => simp [Memory.insert, Memory.get, eq_comm]
  | cons c m ih =>
    obtain ⟨k, w⟩ := c
    have hk : k ≠ a := h (k, w) (by simp)
    have ih := ih (fun c hc => h c (by simp [hc]))
    unfold Memory.insert
    split
    · by_cases hb : b = a
      · simp [Memory.get, hb]
      · simp [Memory.get, hb, Ne.symm hb]
    · by_cases hb : b = a
      · subst hb
        simp [Memory.get, ih, hk]
      · simp [Memory.get, ih, hb]

theorem Memory.erase_ne {m : Memory} {a : Nat} : ∀ c ∈ m.erase a, c.1 ≠ a := by
  simp [Memory.erase]

/-- Setting one cell gives that cell its value and leaves every other as it was. -/
theorem Memory.get_set (m : Memory) (a b : Nat) (v : Byte) :
    (m.set a v).get b = if b = a then v else m.get b := by
  unfold Memory.set
  split
  · next h => simp [Memory.get_erase, h]
  · rw [Memory.get_insert _ _ _ _ Memory.erase_ne, Memory.get_erase]
    split <;> rfl

theorem Memory.read_of_lt {m : Memory} {a : Nat} (h : a < 256) : m.read a = some (m.get a) := by
  simp [Memory.read, h]

theorem Memory.write_of_lt {m : Memory} {a : Nat} {v : Byte} (h : a < 256) : m.write a v = some (m.set a v) := by
  simp [Memory.write, h]

/-- The read of one byte after a cell was set. -/
theorem Memory.read_set (m : Memory) (a b : Nat) (v : Byte) (h : a < 256) :
    (m.set a v).read b = if b = a then some v else m.read b := by
  unfold Memory.read
  rw [Memory.get_set]
  by_cases hb : b = a
  · simp [hb, h]
  · simp [hb]

/-- A write that succeeds is a set of a cell below 256. -/
theorem Memory.write_some {m n : Memory} {a : Nat} {v : Byte} (h : m.write a v = some n) : a < 256 ∧ n = m.set a v := by
  unfold Memory.write at h
  split at h
  · exact ⟨‹_›, by simpa using h.symm⟩
  · cases h

/-! ### The canonical form -/

theorem Memory.wf_cons {k : Nat} {v : Byte} {m : Memory} :
    Memory.wf ((k, v) :: m) = true ↔ k < 256 ∧ v ≠ 0#8 ∧ (∀ c ∈ m, k < c.1) ∧ m.wf = true := by
  simp [Memory.wf, and_assoc]

theorem Memory.wf_erase {m : Memory} (a : Nat) (h : m.wf = true) : (m.erase a).wf = true := by
  induction m with
  | nil => simpa [Memory.erase] using h
  | cons c m ih =>
    obtain ⟨k, w⟩ := c
    obtain ⟨h1, h2, h3, h4⟩ := Memory.wf_cons.1 h
    have ih := ih h4
    unfold Memory.erase at ih ⊢
    by_cases hk : k = a
    · simpa [hk] using ih
    · simp only [List.filter_cons, hk, ne_eq, not_false_eq_true, decide_true, if_true]
      exact Memory.wf_cons.2 ⟨h1, h2, fun c hc => h3 c (List.mem_of_mem_filter hc), ih⟩

theorem Memory.mem_insert {m : Memory} {a : Nat} {v : Byte} {c : Host.Cell} (h : c ∈ m.insert a v) :
    c = (a, v) ∨ c ∈ m := by
  induction m with
  | nil => simpa [Memory.insert] using h
  | cons d m ih =>
    obtain ⟨k, w⟩ := d
    unfold Memory.insert at h
    split at h
    · simpa using h
    · rcases List.mem_cons.1 h with h | h
      · simp [h]
      · rcases ih h with h | h <;> simp [h]

theorem Memory.wf_insert {m : Memory} {a : Nat} {v : Byte} (h : m.wf = true) (ha : a < 256) (hv : v ≠ 0#8)
    (hne : ∀ c ∈ m, c.1 ≠ a) : (m.insert a v).wf = true := by
  induction m with
  | nil => simp [Memory.insert, Memory.wf, ha, hv]
  | cons c m ih =>
    obtain ⟨k, w⟩ := c
    obtain ⟨h1, h2, h3, h4⟩ := Memory.wf_cons.1 h
    have hk : k ≠ a := hne (k, w) (by simp)
    unfold Memory.insert
    split
    · next hlt =>
      refine Memory.wf_cons.2 ⟨ha, hv, fun c hc => ?_, h⟩
      rcases List.mem_cons.1 hc with rfl | hc
      · exact hlt
      · exact hlt.trans (h3 c hc)
    · next hge =>
      refine Memory.wf_cons.2 ⟨h1, h2, fun c hc => ?_, ih h4 (fun c hc => hne c (by simp [hc]))⟩
      rcases Memory.mem_insert hc with rfl | hc
      · show k < a
        omega
      · exact h3 c hc

theorem Memory.wf_set {m : Memory} {a : Nat} {v : Byte} (h : m.wf = true) (ha : a < 256) : (m.set a v).wf = true := by
  unfold Memory.set
  split
  · exact Memory.wf_erase a h
  · next hv => exact Memory.wf_insert (Memory.wf_erase a h) ha hv Memory.erase_ne

/-- Every write keeps the canonical form. -/
theorem Memory.wf_write {m n : Memory} {a : Nat} {v : Byte} (h : m.wf = true) (hw : m.write a v = some n) : n.wf = true := by
  obtain ⟨ha, rfl⟩ := Memory.write_some hw
  exact Memory.wf_set h ha

/-- Placing a sequence of bytes keeps the canonical form. -/
theorem Memory.wf_place {m : Memory} (a : Nat) (bs : List Byte) (h : m.wf = true) : (m.place a bs).wf = true := by
  induction bs generalizing m a with
  | nil => exact h
  | cons b bs ih =>
    unfold Memory.place
    apply ih
    cases hw : m.write a b with
    | none => exact h
    | some n => exact Memory.wf_write h hw

/-- The memory after reset is canonical. -/
theorem Memory.wf_reset : State.reset.mem.wf = true := rfl

/-- Equal memories are equal data: two canonical memories that read the same are the same list. -/
theorem Memory.ext_get {m n : Memory} (hm : m.wf = true) (hn : n.wf = true) (h : ∀ a, m.get a = n.get a) : m = n := by
  have below : ∀ {l : Memory} {k : Nat}, (∀ c ∈ l, k < c.1) → l.get k = 0#8 := by
    intro l k hl
    induction l with
    | nil => rfl
    | cons c l ih =>
      have hc := hl c (by simp)
      have := ih (fun d hd => hl d (by simp [hd]))
      simp [Memory.get, this, Nat.ne_of_gt hc]
  induction m generalizing n with
  | nil =>
    cases n with
    | nil => rfl
    | cons d n =>
      obtain ⟨-, hv, -, -⟩ := Memory.wf_cons.1 hn
      exact absurd (by simpa [Memory.get] using h d.1) (Ne.symm hv)
  | cons c m ih =>
    obtain ⟨-, cv, cl, cw⟩ := Memory.wf_cons.1 hm
    cases n with
    | nil => exact absurd (by simpa [Memory.get] using h c.1) cv
    | cons d n =>
      obtain ⟨-, dv, dl, dw⟩ := Memory.wf_cons.1 hn
      have hk : c.1 = d.1 := by
        rcases Nat.lt_trichotomy c.1 d.1 with hlt | heq | hgt
        · have h2 : Memory.get (d :: n) c.1 = 0#8 :=
            below (fun e he => by
              rcases List.mem_cons.1 he with rfl | he
              · exact hlt
              · exact hlt.trans (dl e he))
          have h1 := h c.1
          rw [h2] at h1
          exact absurd (by simpa [Memory.get] using h1) cv
        · exact heq
        · have h2 : Memory.get (c :: m) d.1 = 0#8 :=
            below (fun e he => by
              rcases List.mem_cons.1 he with rfl | he
              · exact hgt
              · exact hgt.trans (cl e he))
          have h1 := h d.1
          rw [h2] at h1
          exact absurd (by simpa [Memory.get] using h1.symm) dv
      have hv : c.2 = d.2 := by simpa [Memory.get, hk] using h c.1
      have hrest : ∀ a, Memory.get m a = Memory.get n a := by
        intro a
        by_cases ha : c.1 = a
        · rw [← ha, below cl, hk, below dl]
        · have := h a
          simpa [Memory.get, ha, ← hk] using this
      obtain rfl := ih cw dw hrest
      obtain ⟨k, w⟩ := c
      obtain ⟨k', w'⟩ := d
      simp_all

end Sys2Proof.Machine
end

