-- ==== Sys2Proof/Laws/State.lean ====
section
/-! SUPPORT. The small lemmas of the state: one per field per update, and the register file's read after write. -/

namespace Sys2Proof.Machine

@[simp] theorem Regs.get_set (r : Regs) (i j : RegIdx) (v : Byte) :
    (r.set i v).get j = if j = i then v else r.get j := by
  fin_cases i <;> fin_cases j <;> rfl

/-- Two register files that read the same at every index are the same. -/
theorem Regs.ext_get {r q : Regs} (h : ∀ i, r.get i = q.get i) : r = q := by
  cases r
  cases q
  have h0 := h 0
  have h1 := h 1
  have h2 := h 2
  have h3 := h 3
  have h4 := h 4
  have h5 := h 5
  have h6 := h 6
  have h7 := h 7
  simp_all [Regs.get]

/-! ### setReg -/

@[simp] theorem State.setReg_regs (s : State) (i : RegIdx) (v : Byte) : (s.setReg i v).regs = s.regs.set i v := rfl
@[simp] theorem State.setReg_pc (s : State) (i : RegIdx) (v : Byte) : (s.setReg i v).pc = s.pc := rfl
@[simp] theorem State.setReg_fl (s : State) (i : RegIdx) (v : Byte) : (s.setReg i v).fl = s.fl := rfl
@[simp] theorem State.setReg_mem (s : State) (i : RegIdx) (v : Byte) : (s.setReg i v).mem = s.mem := rfl
@[simp] theorem State.setReg_status (s : State) (i : RegIdx) (v : Byte) : (s.setReg i v).status = s.status := rfl
@[simp] theorem State.setReg_report (s : State) (i : RegIdx) (v : Byte) : (s.setReg i v).report = s.report := rfl
@[simp] theorem State.setReg_out (s : State) (i : RegIdx) (v : Byte) : (s.setReg i v).out = s.out := rfl
@[simp] theorem State.setReg_config (s : State) (i : RegIdx) (v : Byte) : (s.setReg i v).config = s.config := rfl

/-! ### setPc -/

@[simp] theorem State.setPc_regs (s : State) (t : Byte) : (s.setPc t).regs = s.regs := rfl
@[simp] theorem State.setPc_pc (s : State) (t : Byte) : (s.setPc t).pc = t := rfl
@[simp] theorem State.setPc_fl (s : State) (t : Byte) : (s.setPc t).fl = s.fl := rfl
@[simp] theorem State.setPc_mem (s : State) (t : Byte) : (s.setPc t).mem = s.mem := rfl
@[simp] theorem State.setPc_status (s : State) (t : Byte) : (s.setPc t).status = s.status := rfl
@[simp] theorem State.setPc_report (s : State) (t : Byte) : (s.setPc t).report = s.report := rfl
@[simp] theorem State.setPc_out (s : State) (t : Byte) : (s.setPc t).out = s.out := rfl
@[simp] theorem State.setPc_config (s : State) (t : Byte) : (s.setPc t).config = s.config := rfl
@[simp] theorem State.setPc_reg (s : State) (t : Byte) (j : RegIdx) : (s.setPc t).reg j = s.reg j := rfl

/-! ### setFl -/

@[simp] theorem State.setFl_regs (s : State) (v : Byte) : (s.setFl v).regs = s.regs := rfl
@[simp] theorem State.setFl_pc (s : State) (v : Byte) : (s.setFl v).pc = s.pc := rfl
@[simp] theorem State.setFl_fl (s : State) (v : Byte) : (s.setFl v).fl = v := rfl
@[simp] theorem State.setFl_mem (s : State) (v : Byte) : (s.setFl v).mem = s.mem := rfl
@[simp] theorem State.setFl_status (s : State) (v : Byte) : (s.setFl v).status = s.status := rfl
@[simp] theorem State.setFl_report (s : State) (v : Byte) : (s.setFl v).report = s.report := rfl
@[simp] theorem State.setFl_out (s : State) (v : Byte) : (s.setFl v).out = s.out := rfl
@[simp] theorem State.setFl_config (s : State) (v : Byte) : (s.setFl v).config = s.config := rfl
@[simp] theorem State.setFl_reg (s : State) (v : Byte) (j : RegIdx) : (s.setFl v).reg j = s.reg j := rfl

/-! ### setMem -/

@[simp] theorem State.setMem_regs (s : State) (m : Memory) : (s.setMem m).regs = s.regs := rfl
@[simp] theorem State.setMem_pc (s : State) (m : Memory) : (s.setMem m).pc = s.pc := rfl
@[simp] theorem State.setMem_fl (s : State) (m : Memory) : (s.setMem m).fl = s.fl := rfl
@[simp] theorem State.setMem_mem (s : State) (m : Memory) : (s.setMem m).mem = m := rfl
@[simp] theorem State.setMem_status (s : State) (m : Memory) : (s.setMem m).status = s.status := rfl
@[simp] theorem State.setMem_report (s : State) (m : Memory) : (s.setMem m).report = s.report := rfl
@[simp] theorem State.setMem_out (s : State) (m : Memory) : (s.setMem m).out = s.out := rfl
@[simp] theorem State.setMem_config (s : State) (m : Memory) : (s.setMem m).config = s.config := rfl
@[simp] theorem State.setMem_reg (s : State) (m : Memory) (j : RegIdx) : (s.setMem m).reg j = s.reg j := rfl

/-! ### setStatus -/

@[simp] theorem State.setStatus_regs (s : State) (x : Status) : (s.setStatus x).regs = s.regs := rfl
@[simp] theorem State.setStatus_pc (s : State) (x : Status) : (s.setStatus x).pc = s.pc := rfl
@[simp] theorem State.setStatus_fl (s : State) (x : Status) : (s.setStatus x).fl = s.fl := rfl
@[simp] theorem State.setStatus_mem (s : State) (x : Status) : (s.setStatus x).mem = s.mem := rfl
@[simp] theorem State.setStatus_status (s : State) (x : Status) : (s.setStatus x).status = x := rfl
@[simp] theorem State.setStatus_report (s : State) (x : Status) : (s.setStatus x).report = s.report := rfl
@[simp] theorem State.setStatus_out (s : State) (x : Status) : (s.setStatus x).out = s.out := rfl
@[simp] theorem State.setStatus_config (s : State) (x : Status) : (s.setStatus x).config = s.config := rfl
@[simp] theorem State.setStatus_reg (s : State) (x : Status) (j : RegIdx) : (s.setStatus x).reg j = s.reg j := rfl

/-! ### emit -/

@[simp] theorem State.emit_regs (s : State) (v : Byte) : (s.emit v).regs = s.regs := rfl
@[simp] theorem State.emit_pc (s : State) (v : Byte) : (s.emit v).pc = s.pc := rfl
@[simp] theorem State.emit_fl (s : State) (v : Byte) : (s.emit v).fl = s.fl := rfl
@[simp] theorem State.emit_mem (s : State) (v : Byte) : (s.emit v).mem = s.mem := rfl
@[simp] theorem State.emit_status (s : State) (v : Byte) : (s.emit v).status = s.status := rfl
@[simp] theorem State.emit_report (s : State) (v : Byte) : (s.emit v).report = s.report := rfl
@[simp] theorem State.emit_out (s : State) (v : Byte) : (s.emit v).out = s.out ++ [v] := rfl
@[simp] theorem State.emit_config (s : State) (v : Byte) : (s.emit v).config = s.config := rfl
@[simp] theorem State.emit_reg (s : State) (v : Byte) (j : RegIdx) : (s.emit v).reg j = s.reg j := rfl

@[simp] theorem State.setReg_reg (s : State) (i j : RegIdx) (v : Byte) :
    (s.setReg i v).reg j = if j = i then v else s.reg j := Regs.get_set s.regs i j v

/-! ### raise -/

@[simp] theorem raise_regs (e : Trap) (bs : List Byte) (s : State) : (raise e bs s).regs = s.regs := rfl
@[simp] theorem raise_pc (e : Trap) (bs : List Byte) (s : State) : (raise e bs s).pc = s.pc := rfl
@[simp] theorem raise_fl (e : Trap) (bs : List Byte) (s : State) : (raise e bs s).fl = s.fl := rfl
@[simp] theorem raise_mem (e : Trap) (bs : List Byte) (s : State) : (raise e bs s).mem = s.mem := rfl
@[simp] theorem raise_status (e : Trap) (bs : List Byte) (s : State) : (raise e bs s).status = .fatal := rfl
@[simp] theorem raise_report (e : Trap) (bs : List Byte) (s : State) : (raise e bs s).report = some (reportOf e bs s.pc) := rfl
@[simp] theorem raise_out (e : Trap) (bs : List Byte) (s : State) : (raise e bs s).out = s.out := rfl
@[simp] theorem raise_config (e : Trap) (bs : List Byte) (s : State) : (raise e bs s).config = s.config := rfl
@[simp] theorem raise_reg (e : Trap) (bs : List Byte) (s : State) (j : RegIdx) : (raise e bs s).reg j = s.reg j := rfl

end Sys2Proof.Machine
end

