-- ==== Sys2Proof/Laws/Ops.lean ====
section
/-! SUPPORT. For each shared operation, what it does: the case in which it gives a value, the case in which it raises, and one
inversion lemma that says everything a value it gave can be. Later proofs cite these and do not unfold the operation. -/

namespace Sys2Proof.Machine

/-! ### Attempts -/

@[simp] theorem attempt_ok_bind {α β : Type} (a : α) (f : α → Attempt β) : ((Except.ok a : Attempt α) >>= f) = f a := rfl

@[simp] theorem attempt_error_bind {α β : Type} (e : Trap) (f : α → Attempt β) :
    ((Except.error e : Attempt α) >>= f) = .error e := rfl

/-- A sequence gives a value only through a value of its first part. -/
theorem attempt_bind_ok {α β : Type} {x : Attempt α} {f : α → Attempt β} {b : β} (h : (x >>= f) = .ok b) :
    ∃ a, x = .ok a ∧ f a = .ok b := by
  cases x with
  | error e => cases h
  | ok a => exact ⟨a, rfl, h⟩

/-- A sequence raises in its first part, or in its second after a value of the first. -/
theorem attempt_bind_error {α β : Type} {x : Attempt α} {f : α → Attempt β} {e : Trap} (h : (x >>= f) = .error e) :
    x = .error e ∨ ∃ a, x = .ok a ∧ f a = .error e := by
  cases x with
  | error e' => exact .inl (by cases h; rfl)
  | ok a => exact .inr ⟨a, rfl, h⟩

@[simp] theorem complete_ok (i : Instr) (s t : State) : complete i s (.ok t) = .next t := rfl

@[simp] theorem complete_error (i : Instr) (s : State) (e : Trap) :
    complete i s (.error e) = .next (raise e (encode i) s) := rfl

/-- An instruction ends in its committed copy or in the raise of what its work raised: always a next state. -/
theorem complete_cases {i : Instr} {s t : State} {w : Attempt State} (h : complete i s w = .next t) :
    w = .ok t ∨ ∃ e, w = .error e ∧ t = raise e (encode i) s := by
  cases w with
  | ok u => exact .inl (by cases h; rfl)
  | error e => exact .inr ⟨e, rfl, by cases h; rfl⟩

/-! ### Register operands -/

theorem registerOperand_ok {r : Byte} {i : RegIdx} (h : r.toNat = i.val) : registerOperand r = .ok i := by
  simp [registerOperand, h]

theorem registerOperand_error {r : Byte} (h : 7 < r.toNat) :
    registerOperand r = .error { reason := .registerIndexInvalid, info := some r.toNat } := by
  have : ¬ r.toNat < 8 := by omega
  simp [registerOperand, this]

theorem registerOperand_inv {r : Byte} {i : RegIdx} (h : registerOperand r = .ok i) : r.toNat = i.val := by
  unfold registerOperand at h
  split at h
  · cases h; rfl
  · cases h

theorem registerOperands_ok {a b : Byte} {i j : RegIdx} (ha : a.toNat = i.val) (hb : b.toNat = j.val) :
    registerOperands a b = .ok (i, j) := by
  simp [registerOperands, registerOperand_ok ha, registerOperand_ok hb]

theorem registerOperands_inv {a b : Byte} {p : RegIdx × RegIdx} (h : registerOperands a b = .ok p) :
    a.toNat = p.1.val ∧ b.toNat = p.2.val := by
  obtain ⟨i, hi, h⟩ := attempt_bind_ok h
  obtain ⟨j, hj, h⟩ := attempt_bind_ok h
  cases h
  exact ⟨registerOperand_inv hi, registerOperand_inv hj⟩

/-! ### The advance -/

theorem byteAddress_ok {n : Nat} (h : n < 256) : byteAddress n = .ok (BitVec.ofNat 8 n) := by
  simp [byteAddress, h]

theorem byteAddress_error {n : Nat} (h : 256 ≤ n) :
    byteAddress n = .error { reason := .outOfBounds, info := some n } := by
  have : ¬ n < 256 := by omega
  simp [byteAddress, this]

theorem byteAddress_inv {n : Nat} {a : Byte} (h : byteAddress n = .ok a) : a.toNat = n := by
  unfold byteAddress at h
  split at h
  · cases h; simpa using by omega
  · cases h

theorem fallThrough_ok {n : Nat} {s : State} (h : s.pc.toNat + n + 1 < 256) :
    fallThrough n s = .ok (s.setPc (BitVec.ofNat 8 (s.pc.toNat + n + 1))) := by
  simp [fallThrough, byteAddress_ok h]

theorem fallThrough_error {n : Nat} {s : State} (h : 256 ≤ s.pc.toNat + n + 1) :
    fallThrough n s = .error { reason := .outOfBounds, info := some (s.pc.toNat + n + 1 : Nat) } := by
  simp [fallThrough, byteAddress_error h]

/-- What the advance does when it does not raise: the PC moves, nothing else. -/
theorem fallThrough_inv {n : Nat} {s t : State} (h : fallThrough n s = .ok t) :
    ∃ p : Byte, p.toNat = s.pc.toNat + n + 1 ∧ t = s.setPc p := by
  obtain ⟨p, hp, h⟩ := attempt_bind_ok h
  cases h
  exact ⟨p, byteAddress_inv hp, rfl⟩

/-! ### The stack -/

theorem loadByte_ok {s : State} {a : Nat} (h : a < 256) : loadByte s a = .ok (s.mem.get a) := by
  simp [loadByte, Memory.read_of_lt h]

theorem storeByte_ok {s : State} {a : Nat} {v : Byte} (h : a < 256) :
    storeByte s a v = .ok (s.setMem (s.mem.set a v)) := by
  simp [storeByte, Memory.write_of_lt h]

/-- R7 is a byte, so a read through it cannot raise. -/
@[simp] theorem loadAtSp_ok (s : State) : loadAtSp s = .ok (s.mem.get (s.reg 7).toNat) :=
  loadByte_ok (s.reg 7).isLt

/-- R7 is a byte, so a write through it cannot raise. -/
@[simp] theorem storeAtSp_ok (s : State) (v : Byte) :
    storeAtSp s v = .ok (s.setMem (s.mem.set (s.reg 7).toNat v)) := storeByte_ok (s.reg 7).isLt

theorem decrementSp_ok {s : State} (h : s.config.stackFloor.toNat < (s.reg 7).toNat) :
    decrementSp s = .ok (s.setReg 7 (s.reg 7 - 1#8)) := by
  have h1 : ¬ ((s.reg 7).toNat : Int) - 1 < (s.config.stackFloor.toNat : Int) := by omega
  have h2 : BitVec.ofInt 8 (((s.reg 7).toNat : Int) - 1) = s.reg 7 - 1#8 := by
    apply BitVec.eq_of_toNat_eq
    rw [BitVec.toNat_ofInt, BitVec.toNat_sub]
    have := (s.reg 7).isLt
    simp
    omega
  simp only [decrementSp, if_neg h1, h2]

theorem decrementSp_error {s : State} (h : (s.reg 7).toNat ≤ s.config.stackFloor.toNat) :
    decrementSp s = .error { reason := .stackOverflow, info := some ((s.reg 7).toNat - 1) } := by
  have h1 : ((s.reg 7).toNat : Int) - 1 < (s.config.stackFloor.toNat : Int) := by omega
  simp only [decrementSp, if_pos h1]

theorem decrementSp_inv {s t : State} (h : decrementSp s = .ok t) :
    s.config.stackFloor.toNat < (s.reg 7).toNat ∧ t = s.setReg 7 (s.reg 7 - 1#8) := by
  rcases Nat.lt_or_ge s.config.stackFloor.toNat (s.reg 7).toNat with hlt | hge
  · rw [decrementSp_ok hlt] at h
    cases h
    exact ⟨hlt, rfl⟩
  · rw [decrementSp_error hge] at h
    cases h

theorem incrementSp_ok {s : State} (h : (s.reg 7).toNat < 255) :
    incrementSp s = .ok (s.setReg 7 (s.reg 7 + 1#8)) := by
  have h1 : ¬ (255 : Int) < ((s.reg 7).toNat : Int) + 1 := by omega
  have h2 : BitVec.ofInt 8 (((s.reg 7).toNat : Int) + 1) = s.reg 7 + 1#8 := by
    apply BitVec.eq_of_toNat_eq
    rw [BitVec.toNat_ofInt, BitVec.toNat_add]
    simp
    omega
  simp only [incrementSp, if_neg h1, h2]

theorem incrementSp_error {s : State} (h : (s.reg 7).toNat = 255) :
    incrementSp s = .error { reason := .stackUnderflow, info := some 256 } := by
  simp [incrementSp, h]

theorem incrementSp_inv {s t : State} (h : incrementSp s = .ok t) :
    (s.reg 7).toNat < 255 ∧ t = s.setReg 7 (s.reg 7 + 1#8) := by
  rcases Nat.lt_or_ge (s.reg 7).toNat 255 with hlt | hge
  · rw [incrementSp_ok hlt] at h
    cases h
    exact ⟨hlt, rfl⟩
  · have := (s.reg 7).isLt
    rw [incrementSp_error (by omega)] at h
    cases h

/-! ### The ALU -/

theorem aluResult_ok {op : AluOp} {a b v : Byte} (h : alu op a b = some v) : aluResult op a b = .ok v := by
  simp [aluResult, h]

theorem aluResult_error {op : AluOp} {a b : Byte} (h : alu op a b = none) :
    aluResult op a b = .error { reason := .divideByZero, info := none } := by
  simp [aluResult, h]

theorem aluResult_inv {op : AluOp} {a b v : Byte} (h : aluResult op a b = .ok v) : alu op a b = some v := by
  unfold aluResult at h
  split at h
  · cases h; assumption
  · cases h

/-- Only DIV and MOD raise, and only on a zero divisor. -/
theorem alu_none_iff (op : AluOp) (a b : Byte) : alu op a b = none ↔ (op = .div ∨ op = .mod) ∧ b.toNat = 0 := by
  cases op <;> simp [alu]

/-- CMP's pattern is one of the three single flags. -/
theorem compareFlags_cases (a b : Byte) :
    compareFlags a b = 0x01#8 ∨ compareFlags a b = 0x02#8 ∨ compareFlags a b = 0x04#8 := by
  unfold compareFlags
  split
  · exact .inl rfl
  · split
    · exact .inr (.inl rfl)
    · exact .inr (.inr rfl)

end Sys2Proof.Machine
end

