-- ==== Sys2Proof/Laws/Exec.lean ====
section
/-! SUPPORT. What each instruction can do, said once: if its meaning answers `next t`, then `t` is one explicit committed
state, or the raise of an error on the state before. Every rule of the whole machine is a case analysis over these. -/

namespace Sys2Proof.Machine

/-- The state a falling-through instruction of `n` operand bytes commits, from the state its handler left. -/
def Advanced (n : Nat) (s t : State) : Prop := ∃ p : Byte, p.toNat = s.pc.toNat + n + 1 ∧ t = s.setPc p

/-- The error outcome of an instruction. -/
def RaisedBy (i : Instr) (s t : State) : Prop := ∃ e, t = raise e (encode i) s

theorem execLdi_cases {r imm : Byte} {s t : State} (h : execLdi r imm s = .next t) :
    (∃ d : RegIdx, r.toNat = d.val ∧ Advanced 2 (s.setReg d imm) t) ∨ RaisedBy (.ldi r imm) s t := by
  rcases complete_cases h with h | ⟨e, _, rfl⟩
  · obtain ⟨d, hd, h⟩ := attempt_bind_ok h
    exact .inl ⟨d, registerOperand_inv hd, fallThrough_inv h⟩
  · exact .inr ⟨e, rfl⟩

theorem execPrn_cases {r : Byte} {s t : State} (h : execPrn r s = .next t) :
    (∃ i : RegIdx, r.toNat = i.val ∧ Advanced 1 (s.emit (s.reg i)) t) ∨ RaisedBy (.prn r) s t := by
  rcases complete_cases h with h | ⟨e, _, rfl⟩
  · obtain ⟨i, hi, h⟩ := attempt_bind_ok h
    exact .inl ⟨i, registerOperand_inv hi, fallThrough_inv h⟩
  · exact .inr ⟨e, rfl⟩

theorem execHlt_cases {s t : State} (h : execHlt s = .next t) : t = (fallThroughHalt s).setStatus .halted := by
  cases h
  rfl

theorem execPush_cases {r : Byte} {s t : State} (h : execPush r s = .next t) :
    (∃ i : RegIdx, r.toNat = i.val ∧ s.config.stackFloor.toNat < (s.reg 7).toNat ∧
      ∃ u, u = s.setReg 7 (s.reg 7 - 1#8) ∧ Advanced 1 (u.setMem (u.mem.set (u.reg 7).toNat (u.reg i))) t) ∨
    RaisedBy (.push r) s t := by
  rcases complete_cases h with h | ⟨e, _, rfl⟩
  · obtain ⟨i, hi, h⟩ := attempt_bind_ok h
    obtain ⟨u, hu, h⟩ := attempt_bind_ok h
    rw [storeAtSp_ok] at h
    exact .inl ⟨i, registerOperand_inv hi, (decrementSp_inv hu).1, u, (decrementSp_inv hu).2, fallThrough_inv h⟩
  · exact .inr ⟨e, rfl⟩

theorem execPop_cases {r : Byte} {s t : State} (h : execPop r s = .next t) :
    (∃ d : RegIdx, r.toNat = d.val ∧ ∃ u, u = s.setReg d (s.mem.get (s.reg 7).toNat) ∧ (u.reg 7).toNat < 255 ∧
      Advanced 1 (u.setReg 7 (u.reg 7 + 1#8)) t) ∨
    RaisedBy (.pop r) s t := by
  rcases complete_cases h with h | ⟨e, _, rfl⟩
  · obtain ⟨d, hd, h⟩ := attempt_bind_ok h
    rw [loadAtSp_ok] at h
    obtain ⟨v, hv, h⟩ := attempt_bind_ok h
    cases hv
    obtain ⟨u, hu, h⟩ := attempt_bind_ok h
    obtain ⟨hlt, rfl⟩ := incrementSp_inv hu
    exact .inl ⟨d, registerOperand_inv hd, _, rfl, hlt, fallThrough_inv h⟩
  · exact .inr ⟨e, rfl⟩

theorem execCall_cases {r : Byte} {s t : State} (h : execCall r s = .next t) :
    (∃ i : RegIdx, r.toNat = i.val ∧ s.config.stackFloor.toNat < (s.reg 7).toNat ∧
      ∃ (u : State) (ret : Byte), u = s.setReg 7 (s.reg 7 - 1#8) ∧ ret.toNat = s.pc.toNat + 2 ∧
        t = (u.setMem (u.mem.set (u.reg 7).toNat ret)).setPc (u.reg i)) ∨
    RaisedBy (.call r) s t := by
  rcases complete_cases h with h | ⟨e, _, rfl⟩
  · obtain ⟨i, hi, h⟩ := attempt_bind_ok h
    obtain ⟨u, hu, h⟩ := attempt_bind_ok h
    obtain ⟨ret, hret, h⟩ := attempt_bind_ok h
    rw [storeAtSp_ok] at h
    cases h
    exact .inl ⟨i, registerOperand_inv hi, (decrementSp_inv hu).1, u, ret, (decrementSp_inv hu).2, byteAddress_inv hret, rfl⟩
  · exact .inr ⟨e, rfl⟩

theorem execRet_cases {s t : State} (h : execRet s = .next t) :
    ((s.reg 7).toNat < 255 ∧ t = (s.setReg 7 (s.reg 7 + 1#8)).setPc (s.mem.get (s.reg 7).toNat)) ∨
    RaisedBy .ret s t := by
  rcases complete_cases h with h | ⟨e, _, rfl⟩
  · rw [loadAtSp_ok] at h
    obtain ⟨v, hv, h⟩ := attempt_bind_ok h
    cases hv
    obtain ⟨u, hu, h⟩ := attempt_bind_ok h
    obtain ⟨hlt, rfl⟩ := incrementSp_inv hu
    cases h
    exact .inl ⟨hlt, rfl⟩
  · exact .inr ⟨e, rfl⟩

theorem execJmp_cases {r : Byte} {s t : State} (h : execJmp r s = .next t) :
    (∃ i : RegIdx, r.toNat = i.val ∧ t = s.setPc (s.reg i)) ∨ RaisedBy (.jmp r) s t := by
  rcases complete_cases h with h | ⟨e, _, rfl⟩
  · obtain ⟨i, hi, h⟩ := attempt_bind_ok h
    cases h
    exact .inl ⟨i, registerOperand_inv hi, rfl⟩
  · exact .inr ⟨e, rfl⟩

theorem execJeq_cases {r : Byte} {s t : State} (h : execJeq r s = .next t) :
    (∃ i : RegIdx, r.toNat = i.val ∧
      ((equalSet s.fl = true ∧ t = s.setPc (s.reg i)) ∨ (equalSet s.fl = false ∧ Advanced 1 s t))) ∨
    RaisedBy (.jeq r) s t := by
  rcases complete_cases h with h | ⟨e, _, rfl⟩
  · obtain ⟨i, hi, h⟩ := attempt_bind_ok h
    refine .inl ⟨i, registerOperand_inv hi, ?_⟩
    split at h
    · cases h
      exact .inl ⟨‹_›, rfl⟩
    · exact .inr ⟨Bool.eq_false_of_not_eq_true ‹_›, fallThrough_inv h⟩
  · exact .inr ⟨e, rfl⟩

theorem execJne_cases {r : Byte} {s t : State} (h : execJne r s = .next t) :
    (∃ i : RegIdx, r.toNat = i.val ∧
      ((notExactlyEqual s.fl = true ∧ t = s.setPc (s.reg i)) ∨ (notExactlyEqual s.fl = false ∧ Advanced 1 s t))) ∨
    RaisedBy (.jne r) s t := by
  rcases complete_cases h with h | ⟨e, _, rfl⟩
  · obtain ⟨i, hi, h⟩ := attempt_bind_ok h
    refine .inl ⟨i, registerOperand_inv hi, ?_⟩
    split at h
    · cases h
      exact .inl ⟨‹_›, rfl⟩
    · exact .inr ⟨Bool.eq_false_of_not_eq_true ‹_›, fallThrough_inv h⟩
  · exact .inr ⟨e, rfl⟩

/-- The ten two-register operations that write a register. -/
theorem aluTwoRegisters_cases {op : AluOp} {x : Instr} {a b : Byte} {s t : State}
    (h : complete x s (aluTwoRegisters op a b s) = .next t) :
    (∃ (i j : RegIdx) (v : Byte), a.toNat = i.val ∧ b.toNat = j.val ∧ alu op (s.reg i) (s.reg j) = some v ∧
      Advanced 2 (s.setReg i v) t) ∨ RaisedBy x s t := by
  rcases complete_cases h with h | ⟨e, _, rfl⟩
  · obtain ⟨p, hp, h⟩ := attempt_bind_ok h
    obtain ⟨v, hv, h⟩ := attempt_bind_ok h
    exact .inl ⟨p.1, p.2, v, (registerOperands_inv hp).1, (registerOperands_inv hp).2, aluResult_inv hv, fallThrough_inv h⟩
  · exact .inr ⟨e, rfl⟩

theorem execCmp_cases {a b : Byte} {s t : State} (h : execCmp a b s = .next t) :
    (∃ i j : RegIdx, a.toNat = i.val ∧ b.toNat = j.val ∧ Advanced 2 (s.setFl (compareFlags (s.reg i) (s.reg j))) t) ∨
    RaisedBy (.cmp a b) s t := by
  rcases complete_cases h with h | ⟨e, _, rfl⟩
  · obtain ⟨p, hp, h⟩ := attempt_bind_ok h
    obtain ⟨v, hv, h⟩ := attempt_bind_ok h
    cases aluResult_inv hv
    exact .inl ⟨p.1, p.2, (registerOperands_inv hp).1, (registerOperands_inv hp).2, fallThrough_inv h⟩
  · exact .inr ⟨e, rfl⟩

theorem execNot_cases {a : Byte} {s t : State} (h : execNot a s = .next t) :
    (∃ (i : RegIdx) (v : Byte), a.toNat = i.val ∧ alu .not (s.reg i) (s.reg i) = some v ∧ Advanced 1 (s.setReg i v) t) ∨
    RaisedBy (.not a) s t := by
  rcases complete_cases h with h | ⟨e, _, rfl⟩
  · obtain ⟨i, hi, h⟩ := attempt_bind_ok h
    obtain ⟨v, hv, h⟩ := attempt_bind_ok h
    exact .inl ⟨i, v, registerOperand_inv hi, aluResult_inv hv, fallThrough_inv h⟩
  · exact .inr ⟨e, rfl⟩

/-- Every meaning ends its own instruction: what it worked out is committed, or raised with that instruction's bytes. -/
theorem exec_eq_complete (i : Instr) (s : State) : ∃ work, exec i s = complete i s work := by
  cases i
  case hlt => exact ⟨.ok _, rfl⟩
  all_goals exact ⟨_, rfl⟩

end Sys2Proof.Machine
end

