-- ==== Sys2Proof/Laws/PerInstr.lean ====
section
/-! SUPPORT. Laws of every instruction as syntax, one lemma per constructor: the shape of its encoding. -/

/-- The shape of an instruction's bytes: one of the 22 opcode bytes first, whose count field (never `0b11`) is the number of
bytes after it, and as many bytes as the fetch reads for that opcode (30_encoding.md R60, R61, R67). -/
def Sys2Proof.Laws.EncodeShape.Statement (i : Sys2Proof.Instr) : Prop :=
  ∃ opcode operands, Sys2Proof.encode i = opcode :: operands ∧
    (Sys2Proof.lookupOpcode opcode).isSome = true ∧
    operands.length = Sys2Proof.countField opcode ∧
    operands.length ≤ 2 ∧
    Sys2Proof.fetchLength opcode = (Sys2Proof.encode i).length

/-- How each constructor's lemma is proved: its bytes written out, and its opcode's count field. -/
theorem Sys2Proof.Laws.encodeShape_of {i : Sys2Proof.Instr} {opcode : Sys2Proof.Byte} {operands : List Sys2Proof.Byte}
    (hbytes : Sys2Proof.encode i = opcode :: operands) (hknown : (Sys2Proof.lookupOpcode opcode).isSome = true)
    (n : Nat) (hlength : operands.length = n) (hcount : Sys2Proof.countField opcode = n) (hn : n ≤ 2) :
    Sys2Proof.Laws.EncodeShape.Statement i := by
  refine ⟨opcode, operands, hbytes, hknown, hlength.trans hcount.symm, hlength ▸ hn, ?_⟩
  obtain ⟨shape, hshape⟩ := Option.isSome_iff_exists.1 hknown
  simp [Sys2Proof.fetchLength, hshape, hbytes, hlength, hcount]

theorem Sys2Proof.Laws.EncodeShape.ldi (r imm : Sys2Proof.Byte) : Sys2Proof.Laws.EncodeShape.Statement (.ldi r imm) :=
  Sys2Proof.Laws.encodeShape_of rfl rfl 2 rfl rfl (by decide)

theorem Sys2Proof.Laws.EncodeShape.prn (r : Sys2Proof.Byte) : Sys2Proof.Laws.EncodeShape.Statement (.prn r) :=
  Sys2Proof.Laws.encodeShape_of rfl rfl 1 rfl rfl (by decide)

theorem Sys2Proof.Laws.EncodeShape.hlt : Sys2Proof.Laws.EncodeShape.Statement .hlt :=
  Sys2Proof.Laws.encodeShape_of rfl rfl 0 rfl rfl (by decide)

theorem Sys2Proof.Laws.EncodeShape.push (r : Sys2Proof.Byte) : Sys2Proof.Laws.EncodeShape.Statement (.push r) :=
  Sys2Proof.Laws.encodeShape_of rfl rfl 1 rfl rfl (by decide)

theorem Sys2Proof.Laws.EncodeShape.pop (r : Sys2Proof.Byte) : Sys2Proof.Laws.EncodeShape.Statement (.pop r) :=
  Sys2Proof.Laws.encodeShape_of rfl rfl 1 rfl rfl (by decide)

theorem Sys2Proof.Laws.EncodeShape.call (r : Sys2Proof.Byte) : Sys2Proof.Laws.EncodeShape.Statement (.call r) :=
  Sys2Proof.Laws.encodeShape_of rfl rfl 1 rfl rfl (by decide)

theorem Sys2Proof.Laws.EncodeShape.ret : Sys2Proof.Laws.EncodeShape.Statement .ret :=
  Sys2Proof.Laws.encodeShape_of rfl rfl 0 rfl rfl (by decide)

theorem Sys2Proof.Laws.EncodeShape.jmp (r : Sys2Proof.Byte) : Sys2Proof.Laws.EncodeShape.Statement (.jmp r) :=
  Sys2Proof.Laws.encodeShape_of rfl rfl 1 rfl rfl (by decide)

theorem Sys2Proof.Laws.EncodeShape.jeq (r : Sys2Proof.Byte) : Sys2Proof.Laws.EncodeShape.Statement (.jeq r) :=
  Sys2Proof.Laws.encodeShape_of rfl rfl 1 rfl rfl (by decide)

theorem Sys2Proof.Laws.EncodeShape.jne (r : Sys2Proof.Byte) : Sys2Proof.Laws.EncodeShape.Statement (.jne r) :=
  Sys2Proof.Laws.encodeShape_of rfl rfl 1 rfl rfl (by decide)

theorem Sys2Proof.Laws.EncodeShape.add (a b : Sys2Proof.Byte) : Sys2Proof.Laws.EncodeShape.Statement (.add a b) :=
  Sys2Proof.Laws.encodeShape_of rfl rfl 2 rfl rfl (by decide)

theorem Sys2Proof.Laws.EncodeShape.sub (a b : Sys2Proof.Byte) : Sys2Proof.Laws.EncodeShape.Statement (.sub a b) :=
  Sys2Proof.Laws.encodeShape_of rfl rfl 2 rfl rfl (by decide)

theorem Sys2Proof.Laws.EncodeShape.mul (a b : Sys2Proof.Byte) : Sys2Proof.Laws.EncodeShape.Statement (.mul a b) :=
  Sys2Proof.Laws.encodeShape_of rfl rfl 2 rfl rfl (by decide)

theorem Sys2Proof.Laws.EncodeShape.div (a b : Sys2Proof.Byte) : Sys2Proof.Laws.EncodeShape.Statement (.div a b) :=
  Sys2Proof.Laws.encodeShape_of rfl rfl 2 rfl rfl (by decide)

theorem Sys2Proof.Laws.EncodeShape.mod (a b : Sys2Proof.Byte) : Sys2Proof.Laws.EncodeShape.Statement (.mod a b) :=
  Sys2Proof.Laws.encodeShape_of rfl rfl 2 rfl rfl (by decide)

theorem Sys2Proof.Laws.EncodeShape.cmp (a b : Sys2Proof.Byte) : Sys2Proof.Laws.EncodeShape.Statement (.cmp a b) :=
  Sys2Proof.Laws.encodeShape_of rfl rfl 2 rfl rfl (by decide)

theorem Sys2Proof.Laws.EncodeShape.and (a b : Sys2Proof.Byte) : Sys2Proof.Laws.EncodeShape.Statement (.and a b) :=
  Sys2Proof.Laws.encodeShape_of rfl rfl 2 rfl rfl (by decide)

theorem Sys2Proof.Laws.EncodeShape.or (a b : Sys2Proof.Byte) : Sys2Proof.Laws.EncodeShape.Statement (.or a b) :=
  Sys2Proof.Laws.encodeShape_of rfl rfl 2 rfl rfl (by decide)

theorem Sys2Proof.Laws.EncodeShape.xor (a b : Sys2Proof.Byte) : Sys2Proof.Laws.EncodeShape.Statement (.xor a b) :=
  Sys2Proof.Laws.encodeShape_of rfl rfl 2 rfl rfl (by decide)

theorem Sys2Proof.Laws.EncodeShape.not (a : Sys2Proof.Byte) : Sys2Proof.Laws.EncodeShape.Statement (.not a) :=
  Sys2Proof.Laws.encodeShape_of rfl rfl 1 rfl rfl (by decide)

theorem Sys2Proof.Laws.EncodeShape.shl (a b : Sys2Proof.Byte) : Sys2Proof.Laws.EncodeShape.Statement (.shl a b) :=
  Sys2Proof.Laws.encodeShape_of rfl rfl 2 rfl rfl (by decide)

theorem Sys2Proof.Laws.EncodeShape.shr (a b : Sys2Proof.Byte) : Sys2Proof.Laws.EncodeShape.Statement (.shr a b) :=
  Sys2Proof.Laws.encodeShape_of rfl rfl 2 rfl rfl (by decide)
end

