-- ==== Sys2Proof/Laws/Step.lean ====
section
/-! SUPPORT. The fetch and the step: what a step can be, said once. -/

namespace Sys2Proof.Machine

/-- Reading at least one byte at PC gives the opcode byte first. -/
theorem readUpTo_succ {m : Memory} {a : Nat} (h : a < 256) (n : Nat) :
    m.readUpTo a (n + 1) = m.get a :: m.readUpTo (a + 1) n := by
  simp [Memory.readUpTo, Memory.read_of_lt h]

theorem readUpTo_out {m : Memory} {a : Nat} (h : 256 ≤ a) (n : Nat) : m.readUpTo a n = [] := by
  have : ¬ a < 256 := by omega
  cases n <;> simp [Memory.readUpTo, Memory.read, this]

/-- Bytes that stand in memory one after another are what a read of as many gives. -/
theorem readUpTo_eq {m : Memory} {a : Nat} {bs : List Byte}
    (h : ∀ k, (hk : k < bs.length) → m.read (a + k) = some bs[k]) : m.readUpTo a bs.length = bs := by
  induction bs generalizing a with
  | nil => rfl
  | cons b bs ih =>
    have h0 : m.read a = some b := h 0 (by simp)
    have hrest : ∀ k, (hk : k < bs.length) → m.read (a + 1 + k) = some bs[k] := by
      intro k hk
      have hn : a + 1 + k = a + (k + 1) := by omega
      rw [hn]
      exact h (k + 1) (Nat.succ_lt_succ hk)
    simp [Memory.readUpTo, h0, ih hrest]

theorem fetchLength_pos (opcode : Byte) : 0 < fetchLength opcode := by
  unfold fetchLength
  split <;> omega

/-- The opcode byte is always fetched: PC is a valid address (R82). -/
theorem fetchBytes_head (s : State) : ∃ rest, fetchBytes s = s.mem.get s.pc.toNat :: rest := by
  obtain ⟨n, hn⟩ : ∃ n, fetchLength (s.mem.get s.pc.toNat) = n + 1 :=
    ⟨_, (Nat.succ_pred_eq_of_pos (fetchLength_pos _)).symm⟩
  exact ⟨_, by unfold fetchBytes; rw [hn, readUpTo_succ s.pc.isLt]⟩

/-- The fetch gives what the decoder reads from the fetched bytes. -/
theorem fetch_of_decode {s : State} {i : Instr} {rest : List Byte} (h : decode (fetchBytes s) = .ok (i, rest)) :
    fetch s = .ok i := by
  simp [fetch, h]

theorem step_of_terminal {s : State} (h : s.status ≠ .running) : step s = .next s := by
  unfold step
  split
  · contradiction
  · rfl
  · rfl

theorem step_of_fetch {s : State} {i : Instr} (h : s.status = .running) (hf : fetch s = .ok i) : step s = exec i s := by
  simp [step, h, hf]

theorem step_of_fetch_error {s : State} {e : Trap} (h : s.status = .running) (hf : fetch s = .error e) :
    step s = .next (raise e (fetchBytes s) s) := by
  simp [step, h, hf]

/-- Everything a step can be: nothing in a terminal status, an instruction, or the raise of a failed fetch. -/
theorem step_cases {s t : State} (h : step s = .next t) :
    (s.status ≠ .running ∧ t = s) ∨
    (s.status = .running ∧ ∃ i, fetch s = .ok i ∧ exec i s = .next t) ∨
    (s.status = .running ∧ ∃ e, fetch s = .error e ∧ t = raise e (fetchBytes s) s) := by
  by_cases hs : s.status = .running
  · cases hf : fetch s with
    | ok i => exact .inr (.inl ⟨hs, i, rfl, by rw [← step_of_fetch hs hf]; exact h⟩)
    | error e =>
      refine .inr (.inr ⟨hs, e, rfl, ?_⟩)
      rw [step_of_fetch_error hs hf] at h
      cases h
      rfl
  · refine .inl ⟨hs, ?_⟩
    rw [step_of_terminal hs] at h
    cases h
    rfl

end Sys2Proof.Machine
end

