-- ==== Sys2Proof/Tests/Slice0.lean ====
section
/-! SUPPORT. The model's own tests. Expected values come from the spec: the table of 30_encoding.md R64 for decoding, the
single-step vectors of 95_test_vectors.md (named L1, K1, S16, ... as there) for execution. Then one witness for every
obligation that has hypotheses: concrete values that meet all of them, at the boundary of each clause. -/

namespace Sys2Proof.Tests

open Sys2Proof.Machine

/-! ### Well-formedness: each check, accepted and refused -/

theorem test_wf_accepts : Instr.wf (.ldi 7#8 255#8) = true ∧ Instr.wf (.prn 0#8) = true ∧ Instr.wf (.add 7#8 7#8) = true ∧
    Instr.wf .hlt = true := by decide

theorem test_wf_refuses_register_of_one_operand : Instr.wf (.prn 8#8) = false ∧ Instr.wf (.not 255#8) = false ∧
    Instr.wf (.jeq 8#8) = false := by decide

theorem test_wf_refuses_register_of_ldi : Instr.wf (.ldi 8#8 0#8) = false := by decide

theorem test_wf_refuses_register_a : Instr.wf (.add 8#8 0#8) = false ∧ Instr.wf (.cmp 9#8 1#8) = false := by decide

theorem test_wf_refuses_register_b : Instr.wf (.add 0#8 8#8) = false ∧ Instr.wf (.div 0#8 9#8) = false := by decide

/-! ### Decoding: a word for every constructor, bit 7 first as R64 writes it -/

theorem test_decode_load_print_halt :
    decode [0b10000010#8, 3#8, 200#8] = .ok (.ldi 3#8 200#8, []) ∧ decode [0b01000111#8, 7#8] = .ok (.prn 7#8, []) ∧
    decode [0b00000001#8] = .ok (.hlt, []) := by decide

theorem test_decode_stack :
    decode [0b01000101#8, 1#8] = .ok (.push 1#8, []) ∧ decode [0b01000110#8, 2#8] = .ok (.pop 2#8, []) := by decide

theorem test_decode_control_transfer :
    decode [0b01010000#8, 1#8] = .ok (.call 1#8, []) ∧ decode [0b00010001#8] = .ok (.ret, []) ∧
    decode [0b01010100#8, 2#8] = .ok (.jmp 2#8, []) ∧ decode [0b01010101#8, 3#8] = .ok (.jeq 3#8, []) ∧
    decode [0b01010110#8, 4#8] = .ok (.jne 4#8, []) := by decide

theorem test_decode_arithmetic :
    decode [0b10100000#8, 1#8, 2#8] = .ok (.add 1#8 2#8, []) ∧ decode [0b10100001#8, 1#8, 2#8] = .ok (.sub 1#8 2#8, []) ∧
    decode [0b10100010#8, 1#8, 2#8] = .ok (.mul 1#8 2#8, []) ∧ decode [0b10100011#8, 1#8, 2#8] = .ok (.div 1#8 2#8, []) ∧
    decode [0b10100100#8, 1#8, 2#8] = .ok (.mod 1#8 2#8, []) ∧
    decode [0b10100111#8, 1#8, 2#8] = .ok (.cmp 1#8 2#8, []) := by decide

theorem test_decode_logic_and_shifts :
    decode [0b10101000#8, 1#8, 2#8] = .ok (.and 1#8 2#8, []) ∧ decode [0b10101010#8, 1#8, 2#8] = .ok (.or 1#8 2#8, []) ∧
    decode [0b10101011#8, 1#8, 2#8] = .ok (.xor 1#8 2#8, []) ∧ decode [0b01101001#8, 5#8] = .ok (.not 5#8, []) ∧
    decode [0b10101100#8, 1#8, 2#8] = .ok (.shl 1#8 2#8, []) ∧
    decode [0b10101101#8, 1#8, 2#8] = .ok (.shr 1#8 2#8, []) := by decide

/-- Bytes outside the table (E1 to E4, S15): empty memory, LDI's low six bits, HLT's low six bits, the gaps of the Ax row, the
unused count 0b11, and the family's other opcodes that R68 names. -/
theorem test_decode_refuses_unknown :
    ∀ b ∈ [0x00#8, 0x02#8, 0x81#8, 0xA5#8, 0xA6#8, 0xA9#8, 0xAE#8, 0xAF#8, 0xC0#8, 0xC1#8, 0xC2#8, 0xFF#8] ++
        [0x84#8, 0x83#8, 0x65#8, 0x66#8, 0x48#8, 0x57#8, 0x58#8, 0x59#8, 0x5A#8, 0x52#8, 0x13#8],
      decode [b, 1#8, 1#8] = .error (.unknownInstruction b) := by decide

theorem test_decode_refuses_missing_operands :
    decode [0x47#8] = .error .missingOperandA ∧ decode [0x82#8] = .error .missingOperandA ∧
    decode [0x82#8, 0#8] = .error .missingOperandB ∧ decode [] = .error .noBytes := by decide

/-- The table's numbering of bits: the second byte of the instruction is bits 15..8, the third bits 23..16. -/
theorem test_decode_table_word :
    decodeTableWord 24 0x050482 = some (.ldi 4#8 5#8) ∧ decodeTableWord 16 0x0746 = some (.pop 7#8) ∧
    decodeTableWord 8 0x01 = some .hlt ∧ decodeTableWord 8 0xA0 = some (.add 0#8 0#8) ∧
    decodeTableWord 8 0x00 = none := by decide

/-! ### Small states and one step -/

/-- The reset state at an address, with some registers set. -/
def start (pc : Byte) (rs : List (RegIdx × Byte)) : State :=
  { State.reset with pc := pc, regs := rs.foldl (fun r p => r.set p.1 p.2) Regs.reset }

/-- A state with some cells set. -/
def withCells (s : State) (cells : List (Nat × Byte)) : State :=
  { s with mem := cells.foldl (fun m c => m.set c.1 c.2) s.mem }

/-- A state with the flags set. -/
def withFlags (s : State) (fl : Byte) : State := { s with fl := fl }

/-- A state on a platform with this `STACK_FLOOR`. -/
def withFloor (s : State) (floor : Byte) : State := { s with config := { stackFloor := floor } }

/-- One step with these bytes at PC. -/
def stepOn (s : State) (bytes : List Byte) : Option State :=
  match step (placeAtPc s bytes) with
  | .next t => some t
  | .fault _ => none
  | .refused _ => none

/-- A register and the PC after the step. -/
def regPc (i : RegIdx) (o : Option State) : Option (Byte × Byte) := o.map (fun t => (t.reg i, t.pc))

/-- R7, a memory cell and the PC after the step. -/
def spCellPc (a : Nat) (o : Option State) : Option (Byte × Byte × Byte) := o.map (fun t => (t.reg 7, t.mem.get a, t.pc))

/-- The flags and the PC after the step. -/
def flPc (o : Option State) : Option (Byte × Byte) := o.map (fun t => (t.fl, t.pc))

/-- The report after the step. -/
def reported (o : Option State) : Option Report := o.bind (fun t => t.report)

/-! ### Execution: LDI, PRN, HLT -/

/-- L2, L3, L4, S8. -/
theorem test_ldi :
    regPc 0 (stepOn (start 0#8 []) [0x82#8, 0#8, 0xFF#8]) = some (0xFF#8, 3#8) ∧
    regPc 7 (stepOn (start 0#8 []) [0x82#8, 7#8, 0x10#8]) = some (0x10#8, 3#8) ∧
    regPc 3 (stepOn (start 0#8 [(3, 0x55#8)]) [0x82#8, 3#8, 0#8]) = some (0#8, 3#8) ∧
    regPc 0 (stepOn (start 0xFC#8 []) [0x82#8, 0#8, 5#8]) = some (5#8, 0xFF#8) := by decide

/-- S6, S7 (with the destination unwritten), S28. -/
theorem test_ldi_errors :
    reported (stepOn (start 0xFE#8 []) [0x82#8, 0#8]) = some ⟨.outOfBounds, 0xFE#8, 0x82#8, some 0#8, none, some 256⟩ ∧
    reported (stepOn (start 0xFD#8 []) [0x82#8, 0#8, 5#8]) =
      some ⟨.outOfBounds, 0xFD#8, 0x82#8, some 0#8, some 5#8, some 256⟩ ∧
    regPc 0 (stepOn (start 0xFD#8 []) [0x82#8, 0#8, 5#8]) = some (0#8, 0xFD#8) ∧
    reported (stepOn (start 0xFD#8 []) [0x82#8, 8#8, 5#8]) =
      some ⟨.registerIndexInvalid, 0xFD#8, 0x82#8, some 8#8, some 5#8, some 8⟩ := by decide

/-- L5, L6. -/
theorem test_prn :
    (stepOn (start 0x10#8 [(0, 9#8)]) [0x47#8, 0#8]).map (fun t => (t.out, t.pc)) = some ([9#8], 0x12#8) ∧
    (stepOn (start 0#8 []) [0x47#8, 7#8]).map (fun t => (t.out, t.pc)) = some ([244#8], 2#8) := by decide

/-- S12', S3, S4: nothing is emitted. -/
theorem test_prn_errors :
    reported (stepOn (start 0#8 []) [0x47#8, 8#8]) = some ⟨.registerIndexInvalid, 0#8, 0x47#8, some 8#8, none, some 8⟩ ∧
    reported (stepOn (start 0xFF#8 []) [0x47#8]) = some ⟨.outOfBounds, 0xFF#8, 0x47#8, none, none, some 256⟩ ∧
    reported (stepOn (start 0xFE#8 [(0, 9#8)]) [0x47#8, 0#8]) =
      some ⟨.outOfBounds, 0xFE#8, 0x47#8, some 0#8, none, some 256⟩ ∧
    (stepOn (start 0xFE#8 [(0, 9#8)]) [0x47#8, 0#8]).map (fun t => t.out) = some [] := by decide

/-- L7, S1. -/
theorem test_hlt :
    (stepOn (start 5#8 []) [1#8]).map (fun t => (t.status, t.pc)) = some (.halted, 6#8) ∧
    (stepOn (start 0xFF#8 []) [1#8]).map (fun t => (t.status, t.pc)) = some (.halted, 0#8) := by decide

/-! ### Execution: the stack -/

/-- K1, S16, S22, S24. -/
theorem test_push :
    spCellPc 0xF3 (stepOn (start 0#8 [(0, 0x2A#8)]) [0x45#8, 0#8]) = some (0xF3#8, 0x2A#8, 2#8) ∧
    spCellPc 0xF3 (stepOn (start 0#8 []) [0x45#8, 7#8]) = some (0xF3#8, 0xF3#8, 2#8) ∧
    spCellPc 0 (stepOn (start 0#8 [(7, 1#8), (0, 5#8)]) [0x45#8, 0#8]) = some (0#8, 5#8, 2#8) ∧
    spCellPc 0x10 (stepOn (withFloor (start 0#8 [(7, 0x11#8), (0, 5#8)]) 0x10#8) [0x45#8, 0#8]) =
      some (0x10#8, 5#8, 2#8) := by decide

/-- S21, S23, S27. -/
theorem test_push_overflow :
    reported (stepOn (start 0#8 [(7, 0#8), (0, 5#8)]) [0x45#8, 0#8]) =
      some ⟨.stackOverflow, 0#8, 0x45#8, some 0#8, none, some (-1)⟩ ∧
    reported (stepOn (withFloor (start 0#8 [(7, 0x10#8), (0, 5#8)]) 0x10#8) [0x45#8, 0#8]) =
      some ⟨.stackOverflow, 0#8, 0x45#8, some 0#8, none, some 15⟩ ∧
    reported (stepOn (start 0xFE#8 [(7, 0#8)]) [0x45#8, 0#8]) =
      some ⟨.stackOverflow, 0xFE#8, 0x45#8, some 0#8, none, some (-1)⟩ := by decide

/-- K2 (the cell stays), S36', S17. -/
theorem test_pop :
    regPc 1 (stepOn (withCells (start 0#8 [(7, 0xF3#8)]) [(0xF3, 0x2A#8)]) [0x46#8, 1#8]) = some (0x2A#8, 2#8) ∧
    spCellPc 0xF3 (stepOn (withCells (start 0#8 [(7, 0xF3#8)]) [(0xF3, 0x2A#8)]) [0x46#8, 1#8]) =
      some (0xF4#8, 0x2A#8, 2#8) ∧
    spCellPc 0xF4 (stepOn (start 0#8 []) [0x46#8, 0#8]) = some (0xF5#8, 0#8, 2#8) ∧
    regPc 7 (stepOn (withCells (start 0#8 []) [(0xF4, 0x20#8)]) [0x46#8, 7#8]) = some (0x21#8, 2#8) := by decide

/-- S18, S20. -/
theorem test_pop_underflow :
    reported (stepOn (withCells (start 0#8 []) [(0xF4, 0xFF#8)]) [0x46#8, 7#8]) =
      some ⟨.stackUnderflow, 0#8, 0x46#8, some 7#8, none, some 256⟩ ∧
    regPc 7 (stepOn (withCells (start 0#8 []) [(0xF4, 0xFF#8)]) [0x46#8, 7#8]) = some (0xF4#8, 0#8) ∧
    reported (stepOn (withCells (start 0#8 [(7, 0xFF#8)]) [(0xFF, 0x77#8)]) [0x46#8, 0#8]) =
      some ⟨.stackUnderflow, 0#8, 0x46#8, some 0#8, none, some 256⟩ ∧
    regPc 0 (stepOn (withCells (start 0#8 [(7, 0xFF#8)]) [(0xFF, 0x77#8)]) [0x46#8, 0#8]) = some (0#8, 0#8) := by decide

/-! ### Execution: control transfer -/

/-- J1, S19, S10. -/
theorem test_call :
    spCellPc 0xF3 (stepOn (start 6#8 [(1, 0x0B#8)]) [0x50#8, 1#8]) = some (0xF3#8, 8#8, 0x0B#8) ∧
    spCellPc 0xF3 (stepOn (start 0#8 []) [0x50#8, 7#8]) = some (0xF3#8, 2#8, 0xF3#8) ∧
    spCellPc 0xF3 (stepOn (start 0xFD#8 [(0, 0x20#8)]) [0x50#8, 0#8]) = some (0xF3#8, 0xFF#8, 0x20#8) := by decide

/-- S9 (with R7 and the cell untouched), J3. -/
theorem test_call_errors :
    reported (stepOn (start 0xFE#8 [(0, 0x20#8)]) [0x50#8, 0#8]) =
      some ⟨.outOfBounds, 0xFE#8, 0x50#8, some 0#8, none, some 256⟩ ∧
    spCellPc 0xF3 (stepOn (start 0xFE#8 [(0, 0x20#8)]) [0x50#8, 0#8]) = some (0xF4#8, 0#8, 0xFE#8) ∧
    reported (stepOn (start 0#8 [(7, 0#8), (0, 0x20#8)]) [0x50#8, 0#8]) =
      some ⟨.stackOverflow, 0#8, 0x50#8, some 0#8, none, some (-1)⟩ := by decide

/-- J2, S36, S2. -/
theorem test_ret :
    regPc 7 (stepOn (withCells (start 0x0E#8 [(7, 0xF3#8)]) [(0xF3, 8#8)]) [0x11#8]) = some (0xF4#8, 8#8) ∧
    regPc 7 (stepOn (start 0#8 []) [0x11#8]) = some (0xF5#8, 0#8) ∧
    regPc 7 (stepOn (withCells (start 0xFF#8 [(7, 0xF3#8)]) [(0xF3, 0x10#8)]) [0x11#8]) = some (0xF4#8, 0x10#8) := by
  decide

/-- The last step of program P11. -/
theorem test_ret_underflow :
    reported (stepOn (start 3#8 [(7, 0xFF#8)]) [0x11#8]) =
      some ⟨.stackUnderflow, 3#8, 0x11#8, none, none, some 256⟩ := by decide

/-- S5, J4, J5. -/
theorem test_jmp :
    regPc 0 (stepOn (start 0xFE#8 [(0, 0x20#8)]) [0x54#8, 0#8]) = some (0x20#8, 0x20#8) ∧
    regPc 0 (stepOn (start 3#8 [(0, 0#8)]) [0x54#8, 0#8]) = some (0#8, 0#8) ∧
    regPc 0 (stepOn (start 3#8 [(0, 3#8)]) [0x54#8, 0#8]) = some (3#8, 3#8) := by decide

/-- S33, J6, S35, J7, S11. -/
theorem test_jeq :
    flPc (stepOn (start 0#8 [(0, 0x30#8)]) [0x55#8, 0#8]) = some (0#8, 2#8) ∧
    flPc (stepOn (withFlags (start 0#8 [(0, 0x30#8)]) 1#8) [0x55#8, 0#8]) = some (1#8, 0x30#8) ∧
    flPc (stepOn (withFlags (start 0#8 [(0, 0x30#8)]) 2#8) [0x55#8, 0#8]) = some (2#8, 2#8) ∧
    flPc (stepOn (withFlags (start 0#8 [(0, 0x30#8)]) 4#8) [0x55#8, 0#8]) = some (4#8, 2#8) ∧
    flPc (stepOn (withFlags (start 0xFE#8 [(0, 0x20#8)]) 1#8) [0x55#8, 0#8]) = some (1#8, 0x20#8) := by decide

/-- S12, S29. -/
theorem test_jeq_errors :
    reported (stepOn (start 0xFE#8 [(0, 0x20#8)]) [0x55#8, 0#8]) =
      some ⟨.outOfBounds, 0xFE#8, 0x55#8, some 0#8, none, some 256⟩ ∧
    reported (stepOn (start 0#8 []) [0x55#8, 8#8]) =
      some ⟨.registerIndexInvalid, 0#8, 0x55#8, some 8#8, none, some 8⟩ := by decide

/-- S32, J8, J9, S34. -/
theorem test_jne :
    flPc (stepOn (start 0#8 [(0, 0x30#8)]) [0x56#8, 0#8]) = some (0#8, 0x30#8) ∧
    flPc (stepOn (withFlags (start 0#8 [(0, 0x30#8)]) 1#8) [0x56#8, 0#8]) = some (1#8, 2#8) ∧
    flPc (stepOn (withFlags (start 0#8 [(0, 0x30#8)]) 2#8) [0x56#8, 0#8]) = some (2#8, 0x30#8) ∧
    flPc (stepOn (withFlags (start 0#8 [(0, 0x30#8)]) 4#8) [0x56#8, 0#8]) = some (4#8, 0x30#8) := by decide

/-- S13. -/
theorem test_jne_errors :
    reported (stepOn (withFlags (start 0xFE#8 [(0, 0x20#8)]) 1#8) [0x56#8, 0#8]) =
      some ⟨.outOfBounds, 0xFE#8, 0x56#8, some 0#8, none, some 256⟩ := by decide

/-! ### Execution: the ALU (values of the table 2.1 and the steps of 2.2) -/

/-- ADD C8 64, S37 (one register twice). -/
theorem test_add :
    regPc 0 (stepOn (start 0#8 [(0, 0xC8#8), (1, 0x64#8)]) [0xA0#8, 0#8, 1#8]) = some (0x2C#8, 3#8) ∧
    regPc 0 (stepOn (start 0#8 [(0, 0x90#8)]) [0xA0#8, 0#8, 0#8]) = some (0x20#8, 3#8) := by decide

/-- S41. -/
theorem test_add_at_the_top :
    reported (stepOn (start 0xFD#8 [(0, 1#8), (1, 2#8)]) [0xA0#8, 0#8, 1#8]) =
      some ⟨.outOfBounds, 0xFD#8, 0xA0#8, some 0#8, some 1#8, some 256⟩ ∧
    regPc 0 (stepOn (start 0xFD#8 [(0, 1#8), (1, 2#8)]) [0xA0#8, 0#8, 1#8]) = some (1#8, 0xFD#8) := by decide

/-- SUB 00 01, SUB 05 06, A2. -/
theorem test_sub :
    regPc 0 (stepOn (start 0#8 [(1, 1#8)]) [0xA1#8, 0#8, 1#8]) = some (0xFF#8, 3#8) ∧
    regPc 0 (stepOn (start 0#8 [(0, 5#8), (1, 6#8)]) [0xA1#8, 0#8, 1#8]) = some (0xFF#8, 3#8) ∧
    regPc 2 (stepOn (start 0#8 [(2, 7#8)]) [0xA1#8, 2#8, 2#8]) = some (0#8, 3#8) := by decide

/-- A1, MUL FF FF, MUL 10 10. -/
theorem test_mul :
    regPc 0 (stepOn (start 0#8 [(0, 5#8), (1, 6#8)]) [0xA2#8, 0#8, 1#8]) = some (0x1E#8, 3#8) ∧
    regPc 0 (stepOn (start 0#8 [(0, 0xFF#8), (1, 0xFF#8)]) [0xA2#8, 0#8, 1#8]) = some (1#8, 3#8) ∧
    regPc 0 (stepOn (start 0#8 [(0, 0x10#8), (1, 0x10#8)]) [0xA2#8, 0#8, 1#8]) = some (0#8, 3#8) := by decide

/-- DIV 07 02, DIV 80 FF (unsigned), A3. -/
theorem test_div :
    regPc 0 (stepOn (start 0#8 [(0, 7#8), (1, 2#8)]) [0xA3#8, 0#8, 1#8]) = some (3#8, 3#8) ∧
    regPc 0 (stepOn (start 0#8 [(0, 0x80#8), (1, 0xFF#8)]) [0xA3#8, 0#8, 1#8]) = some (0#8, 3#8) ∧
    regPc 2 (stepOn (start 0#8 [(2, 7#8)]) [0xA3#8, 2#8, 2#8]) = some (1#8, 3#8) := by decide

/-- A4, S25, S26. -/
theorem test_div_errors :
    reported (stepOn (start 0#8 [(2, 0#8)]) [0xA3#8, 2#8, 2#8]) =
      some ⟨.divideByZero, 0#8, 0xA3#8, some 2#8, some 2#8, none⟩ ∧
    reported (stepOn (start 0#8 [(1, 0#8)]) [0xA3#8, 9#8, 1#8]) =
      some ⟨.registerIndexInvalid, 0#8, 0xA3#8, some 9#8, some 1#8, some 9⟩ ∧
    reported (stepOn (start 0#8 []) [0xA3#8, 0#8, 9#8]) =
      some ⟨.registerIndexInvalid, 0#8, 0xA3#8, some 0#8, some 9#8, some 9⟩ := by decide

/-- MOD 64 07, MOD 80 FF (unsigned). -/
theorem test_mod :
    regPc 0 (stepOn (start 0#8 [(0, 0x64#8), (1, 7#8)]) [0xA4#8, 0#8, 1#8]) = some (2#8, 3#8) ∧
    regPc 0 (stepOn (start 0#8 [(0, 0x80#8), (1, 0xFF#8)]) [0xA4#8, 0#8, 1#8]) = some (0x80#8, 3#8) := by decide

/-- S40. -/
theorem test_mod_by_zero :
    reported (stepOn (start 0#8 [(0, 9#8), (1, 0#8)]) [0xA4#8, 0#8, 1#8]) =
      some ⟨.divideByZero, 0#8, 0xA4#8, some 0#8, some 1#8, none⟩ ∧
    regPc 0 (stepOn (start 0#8 [(0, 9#8), (1, 0#8)]) [0xA4#8, 0#8, 1#8]) = some (9#8, 0#8) := by decide

/-- S38, A5, CMP 80 7F and CMP 00 FF (unsigned). -/
theorem test_cmp :
    flPc (stepOn (withFlags (start 0#8 [(3, 7#8)]) 4#8) [0xA7#8, 3#8, 3#8]) = some (1#8, 3#8) ∧
    flPc (stepOn (withFlags (start 0#8 [(0, 5#8), (1, 6#8)]) 1#8) [0xA7#8, 0#8, 1#8]) = some (4#8, 3#8) ∧
    flPc (stepOn (start 0#8 [(0, 0x80#8), (1, 0x7F#8)]) [0xA7#8, 0#8, 1#8]) = some (2#8, 3#8) ∧
    flPc (stepOn (start 0#8 [(0, 0#8), (1, 0xFF#8)]) [0xA7#8, 0#8, 1#8]) = some (4#8, 3#8) := by decide

theorem test_and :
    regPc 0 (stepOn (start 0#8 [(0, 0xCC#8), (1, 0xAA#8)]) [0xA8#8, 0#8, 1#8]) = some (0x88#8, 3#8) := by decide

theorem test_or :
    regPc 0 (stepOn (start 0#8 [(0, 0xCC#8), (1, 0xAA#8)]) [0xAA#8, 0#8, 1#8]) = some (0xEE#8, 3#8) := by decide

/-- XOR CC AA, XOR of a register with itself. -/
theorem test_xor :
    regPc 0 (stepOn (start 0#8 [(0, 0xCC#8), (1, 0xAA#8)]) [0xAB#8, 0#8, 1#8]) = some (0x66#8, 3#8) ∧
    regPc 4 (stepOn (start 0#8 [(4, 0xA5#8)]) [0xAB#8, 4#8, 4#8]) = some (0#8, 3#8) := by decide

/-- S39, NOT 80. -/
theorem test_not :
    regPc 7 (stepOn (start 0#8 []) [0x69#8, 7#8]) = some (0x0B#8, 2#8) ∧
    regPc 1 (stepOn (start 0#8 [(1, 0x80#8)]) [0x69#8, 1#8]) = some (0x7F#8, 2#8) := by decide

/-- A8, S42. -/
theorem test_not_errors :
    reported (stepOn (start 0#8 []) [0x69#8, 8#8]) = some ⟨.registerIndexInvalid, 0#8, 0x69#8, some 8#8, none, some 8⟩ ∧
    reported (stepOn (start 0xFE#8 [(0, 1#8)]) [0x69#8, 0#8]) =
      some ⟨.outOfBounds, 0xFE#8, 0x69#8, some 0#8, none, some 256⟩ ∧
    regPc 0 (stepOn (start 0xFE#8 [(0, 1#8)]) [0x69#8, 0#8]) = some (1#8, 0xFE#8) := by decide

/-- SHL 81 01, SHL FF 07, A6. -/
theorem test_shl :
    regPc 0 (stepOn (start 0#8 [(0, 0x81#8), (1, 1#8)]) [0xAC#8, 0#8, 1#8]) = some (2#8, 3#8) ∧
    regPc 0 (stepOn (start 0#8 [(0, 0xFF#8), (1, 7#8)]) [0xAC#8, 0#8, 1#8]) = some (0x80#8, 3#8) ∧
    regPc 0 (stepOn (start 0#8 [(0, 0xFF#8), (1, 9#8)]) [0xAC#8, 0#8, 1#8]) = some (0#8, 3#8) := by decide

/-- SHL by 8 and by FF: the amount is not masked to three bits. -/
theorem test_shl_saturates :
    regPc 0 (stepOn (start 0#8 [(0, 1#8), (1, 8#8)]) [0xAC#8, 0#8, 1#8]) = some (0#8, 3#8) ∧
    regPc 0 (stepOn (start 0#8 [(0, 0xFF#8), (1, 0xFF#8)]) [0xAC#8, 0#8, 1#8]) = some (0#8, 3#8) := by decide

/-- SHR FF 07 (logical), SHR 81 01, A7. -/
theorem test_shr :
    regPc 0 (stepOn (start 0#8 [(0, 0xFF#8), (1, 7#8)]) [0xAD#8, 0#8, 1#8]) = some (1#8, 3#8) ∧
    regPc 0 (stepOn (start 0#8 [(0, 0x81#8), (1, 1#8)]) [0xAD#8, 0#8, 1#8]) = some (0x40#8, 3#8) ∧
    regPc 0 (stepOn (start 0#8 [(0, 0xFF#8), (1, 8#8)]) [0xAD#8, 0#8, 1#8]) = some (0#8, 3#8) := by decide

/-! ### The cycle, the placing of a word, the host's interface -/

/-- S15, E1, E2, S14. -/
theorem test_unknown_opcode :
    reported (stepOn (start 0x10#8 []) [2#8]) = some ⟨.unknownInstruction, 0x10#8, 2#8, none, none, some 2⟩ ∧
    reported (stepOn (start 0#8 []) []) = some ⟨.unknownInstruction, 0#8, 0#8, none, none, some 0⟩ ∧
    reported (stepOn (start 0#8 []) [0xC1#8]) = some ⟨.unknownInstruction, 0#8, 0xC1#8, none, none, some 0xC1⟩ ∧
    reported (stepOn (start 0xFF#8 []) [0xC0#8]) = some ⟨.unknownInstruction, 0xFF#8, 0xC0#8, none, none, some 0xC0⟩ := by
  decide

/-- Step 4 of program P14: the byte a PUSH stored at 08 is the byte the next fetch reads. -/
theorem test_fetch_sees_the_store :
    (stepOn (withCells (start 6#8 [(7, 9#8), (0, 1#8)]) [(8, 0x47#8), (9, 0#8), (10, 1#8)]) [0x45#8, 0#8]).map
      (fun t => fetchBytes t) = some [1#8] := by decide

theorem test_place_word_at_reset :
    step (State.reset.withFetchWord 24 0x080082) =
      .next ((State.reset.withFetchWord 24 0x080082).setReg 0 8#8 |>.setPc 3#8) := by rfl

/-- Every row of the table, placed with its operands zero, runs as the first instruction after reset. -/
theorem test_every_row_decodes : opcodeBytes.all (fun op => (decodeTableWord 24 op).isSome) = true := by decide

/-- R203, R204: an image in range, one that ends at the top, one that leaves the memory, an empty one. -/
theorem test_load_bytes :
    (match Session.loadBytes 0 [0x82#8, 0#8, 8#8] { core := State.reset, begun := false } with
      | .next g => g.core.mem
      | .fault _ => []
      | .refused _ => []) = [(0, 0x82#8), (2, 8#8)] ∧
    Session.loadBytes 255 [1#8, 2#8] { core := State.reset, begun := false } = .fault (.outOfBounds 256) ∧
    Session.loadBytes 300 [] { core := State.reset, begun := false } = .fault (.outOfBounds 300) ∧
    Session.loadBytes 0 [] { core := State.reset, begun := true } = .refused .loadAfterStart :=
  ⟨by decide, rfl, rfl, rfl⟩

/-! ### Witnesses: values that meet the hypotheses of each obligation -/

theorem witness_DecodedBytesAreTheEncoding : decode [0xA3#8, 8#8, 255#8, 7#8] = .ok (.div 8#8 255#8, [7#8]) := by decide

theorem witness_LengthIsTheCountFieldPlusOne :
    decode (0x82#8 :: [0#8, 8#8]) = .ok (.ldi 0#8 8#8, []) ∧ decode (0x47#8 :: [0#8]) = .ok (.prn 0#8, []) ∧
    decode (0x01#8 :: []) = .ok (.hlt, []) := by decide

/-- An instruction at the top of memory, an ill-formed one too. -/
theorem witness_StepRunsTheInstructionAtPc :
    (withCells (start 0xFD#8 []) [(0xFD, 0x82#8), (0xFE, 8#8), (0xFF, 5#8)]).status = .running ∧
    ∀ k, (hk : k < (encode (.ldi 8#8 5#8)).length) →
      (withCells (start 0xFD#8 []) [(0xFD, 0x82#8), (0xFE, 8#8), (0xFF, 5#8)]).mem.read (0xFD + k) =
        some (encode (.ldi 8#8 5#8))[k] := by decide

theorem witness_PlacedWordRunsAsItDecodes :
    (start 253#8 []).pc.toNat ≤ 253 ∧ decodeTableWord 24 0x080082 = some (.ldi 0#8 8#8) := by decide

theorem witness_TerminalStatusDoesNothing :
    (State.reset.setStatus .halted).terminal ∧ (State.reset.setStatus .fatal).terminal := by decide

/-- The first and the last byte outside the table, and one at the last address. -/
theorem witness_UnknownOpcodeIsFatalNotSkipped :
    State.reset.status = .running ∧ State.reset.mem.read State.reset.pc.toNat = some 0x00#8 ∧ (0x00#8).toNat ∉ opcodeBytes ∧
    (withCells (start 255#8 []) [(255, 0xFF#8)]).status = .running ∧
    (withCells (start 255#8 []) [(255, 0xFF#8)]).mem.read 255 = some 0xFF#8 ∧ (0xFF#8).toNat ∉ opcodeBytes := by decide

theorem witness_UnknownOpcodeReport :
    (withCells (start 255#8 []) [(255, 0xC0#8)]).status = .running ∧
    (withCells (start 255#8 []) [(255, 0xC0#8)]).mem.read (start 255#8 []).pc.toNat = some 0xC0#8 ∧
    (0xC0#8).toNat ∉ opcodeBytes := by decide

theorem witness_OperandFetchPastTheTopIsOutOfBounds :
    ((withCells (start 255#8 []) [(255, 0x47#8)]).status = .running ∧
      (withCells (start 255#8 []) [(255, 0x47#8)]).mem.read 255 = some 0x47#8 ∧ (0x47#8).toNat ∈ opcodeBytes ∧
      1 ≤ ((0x47#8).extractLsb' 6 2).toNat) ∧
    ((withCells (start 254#8 []) [(254, 0x82#8), (255, 3#8)]).status = .running ∧
      (withCells (start 254#8 []) [(254, 0x82#8), (255, 3#8)]).mem.read 254 = some 0x82#8 ∧
      (0x82#8).toNat ∈ opcodeBytes ∧ ((0x82#8).extractLsb' 6 2).toNat = 2 ∧
      (withCells (start 254#8 []) [(254, 0x82#8), (255, 3#8)]).mem.read 255 = some 3#8) := by decide

theorem witness_AFailingInstructionCommitsNothing :
    State.reset.status = .running ∧ step State.reset = .next (raise ⟨.unknownInstruction, some 0⟩ [0#8] State.reset) ∧
    (raise ⟨.unknownInstruction, some 0⟩ [0#8] State.reset).status = .fatal := ⟨rfl, rfl, rfl⟩

/-- Each item of the order meets a state in which it is the first error, and one in which there is none. -/
theorem witness_ErrorsAreRaisedInTheSpecsOrder :
    firstError (.div 9#8 8#8) (start 253#8 []) = some ⟨.registerIndexInvalid, some 9⟩ ∧
    firstError (.div 0#8 8#8) (start 253#8 []) = some ⟨.registerIndexInvalid, some 8⟩ ∧
    firstError (.div 0#8 1#8) (start 253#8 []) = some ⟨.divideByZero, none⟩ ∧
    firstError (.div 0#8 7#8) (start 253#8 []) = some ⟨.outOfBounds, some 256⟩ ∧
    firstError (.push 0#8) (start 254#8 [(7, 0#8)]) = some ⟨.stackOverflow, some (-1)⟩ ∧
    firstError (.call 0#8) (start 254#8 []) = some ⟨.outOfBounds, some 256⟩ ∧
    firstError .ret (start 0#8 [(7, 255#8)]) = some ⟨.stackUnderflow, some 256⟩ ∧
    firstError (.div 0#8 7#8) (start 252#8 []) = none := by decide

theorem witness_LdiLoadsItsImmediate : Names 7#8 7 ∧ (start 252#8 []).pc.toNat ≤ 252 := by decide

theorem witness_PrnEmitsItsRegister : Names 0#8 0 ∧ (start 253#8 []).pc.toNat ≤ 253 := by decide

/-- The lowest address that may be written, on two platforms; R7 itself is pushed. -/
theorem witness_PushStoresBelowTheStackPointer :
    Names 7#8 7 ∧ (start 253#8 [(7, 1#8)]).config.stackFloor.toNat < ((start 253#8 [(7, 1#8)]).reg 7).toNat ∧
    (start 253#8 [(7, 1#8)]).pc.toNat ≤ 253 ∧
    (withFloor (start 0#8 [(7, 17#8)]) 16#8).config.stackFloor.toNat <
      ((withFloor (start 0#8 [(7, 17#8)]) 16#8).reg 7).toNat := by decide

theorem witness_PopLoadsAndIncrements :
    Names 6#8 6 ∧ (6 : RegIdx) ≠ 7 ∧ ((start 253#8 [(7, 254#8)]).reg 7).toNat < 255 ∧
    (start 253#8 [(7, 254#8)]).pc.toNat ≤ 253 := by decide

theorem witness_PopOfTheStackPointerLoadsThenIncrements :
    ((withCells (start 253#8 [(7, 255#8)]) [(255, 254#8)]).mem.read 255 = some 254#8 ∧ (254#8).toNat < 255 ∧
      (start 253#8 []).pc.toNat ≤ 253) ∧
    (withCells (start 255#8 [(7, 255#8)]) [(255, 255#8)]).mem.read 255 = some 255#8 := by decide

theorem witness_StackBoundsAreChecked :
    Names 0#8 0 ∧ (0 : RegIdx) ≠ 7 ∧
    ((start 254#8 [(7, 0#8)]).reg 7).toNat ≤ (start 254#8 [(7, 0#8)]).config.stackFloor.toNat ∧
    ((withFloor (start 0#8 [(7, 16#8)]) 16#8).reg 7).toNat ≤
      (withFloor (start 0#8 [(7, 16#8)]) 16#8).config.stackFloor.toNat ∧
    ((start 254#8 [(7, 255#8)]).reg 7).toNat = 255 := by decide

theorem witness_PushThenPopRoundTrips :
    Names 0#8 0 ∧ Names 6#8 6 ∧ (0 : RegIdx) ≠ 7 ∧ (6 : RegIdx) ≠ 7 ∧
    (start 251#8 [(7, 1#8)]).config.stackFloor.toNat < ((start 251#8 [(7, 1#8)]).reg 7).toNat ∧
    (start 251#8 [(7, 1#8)]).pc.toNat ≤ 251 := by decide

theorem witness_CallPushesTheReturnAddress :
    Names 7#8 7 ∧ Names 1#8 1 ∧
    (start 253#8 [(7, 1#8)]).config.stackFloor.toNat < ((start 253#8 [(7, 1#8)]).reg 7).toNat ∧
    (start 253#8 [(7, 1#8)]).pc.toNat ≤ 253 := by decide

theorem witness_CallAtTheTopHasNoReturnAddress :
    Names 0#8 0 ∧ (start 254#8 []).config.stackFloor.toNat < ((start 254#8 []).reg 7).toNat ∧
    (start 254#8 []).pc = 254#8 := by decide

theorem witness_RetPopsThePc : ((start 255#8 [(7, 254#8)]).reg 7).toNat < 255 := by decide

/-- The inner hypotheses too: a state that has the stack pointer and the cell as this CALL left them. -/
theorem witness_CallThenRetReturns :
    Names 1#8 1 ∧ (start 253#8 []).config.stackFloor.toNat < ((start 253#8 []).reg 7).toNat ∧
    (start 253#8 []).pc.toNat ≤ 253 ∧
    exec (.call 1#8) (start 253#8 []) = .next (withCells (start 0#8 [(7, 0xF3#8)]) [(0xF3, 255#8)]) ∧
    (withCells (start 9#8 [(0, 1#8), (7, 0xF3#8)]) [(0xF3, 255#8)]).reg 7 =
      (withCells (start 0#8 [(7, 0xF3#8)]) [(0xF3, 255#8)]).reg 7 ∧
    (withCells (start 9#8 [(0, 1#8), (7, 0xF3#8)]) [(0xF3, 255#8)]).mem.read 0xF3 =
      (withCells (start 0#8 [(7, 0xF3#8)]) [(0xF3, 255#8)]).mem.read 0xF3 :=
  ⟨by decide, by decide, by decide, rfl, by decide, by decide⟩

theorem witness_JmpSetsThePc : Names 7#8 7 := by decide

theorem witness_JeqTestsTheEqualBit :
    Names 0#8 0 ∧ ((withFlags (start 255#8 []) 1#8).fl.getLsbD 0 = true ∨ (start 255#8 []).pc.toNat ≤ 253) ∧
    ((start 253#8 []).fl.getLsbD 0 = true ∨ (start 253#8 []).pc.toNat ≤ 253) := by decide

theorem witness_JneComparesTheWholeFlagRegister :
    Names 0#8 0 ∧ ((start 255#8 []).fl ≠ 0x01#8 ∨ (start 255#8 []).pc.toNat ≤ 253) ∧
    ((withFlags (start 253#8 []) 1#8).fl ≠ 0x01#8 ∨ (withFlags (start 253#8 []) 1#8).pc.toNat ≤ 253) := by decide

theorem witness_ExactlyOneOfJeqAndJneIsTaken :
    (withFlags (start 253#8 []) 4#8).flLegal ∧ (withFlags (start 253#8 []) 1#8).flLegal ∧ Names 7#8 7 ∧
    (start 253#8 []).pc.toNat ≤ 253 := by decide

/-- The boundaries of the clauses of the ALU's table: a zero and a non-zero divisor, the three comparisons, amounts 7 and 8. -/
theorem witness_AluComputesItsTable :
    (1#8 : Byte) ≠ 0#8 ∧ (0#8 : Byte) = 0#8 ∧ (5#8 : Byte) = 5#8 ∧ (5#8 : Byte) < 6#8 ∧ (0x7F#8 : Byte) < 0x80#8 ∧
    (7#8).toNat < 8 ∧ 8 ≤ (8#8).toNat := by decide

theorem witness_AddSubMulWrapModulo256 : Names 7#8 7 ∧ Names 0#8 0 ∧ (start 252#8 []).pc.toNat ≤ 252 := by decide

theorem witness_DivAndModAreUnsigned :
    Names 0#8 0 ∧ Names 7#8 7 ∧ (start 252#8 []).reg 7 ≠ 0#8 ∧ (start 252#8 []).pc.toNat ≤ 252 := by decide

theorem witness_DivideByZeroTerminatesTheRun : Names 0#8 0 ∧ Names 1#8 1 ∧ (start 253#8 []).reg 1 = 0#8 := by decide

theorem witness_AndOrXorAreBitwise : Names 1#8 1 ∧ Names 1#8 1 ∧ (start 252#8 []).pc.toNat ≤ 252 := by decide

theorem witness_NotInvertsEveryBit : Names 7#8 7 ∧ (start 253#8 []).pc.toNat ≤ 253 := by decide

theorem witness_ShiftsSaturateToZero :
    Names 0#8 0 ∧ Names 1#8 1 ∧ (start 252#8 [(1, 7#8)]).pc.toNat ≤ 252 ∧ (start 252#8 [(1, 7#8)]).reg 1 = 7#8 ∧
    (start 252#8 [(1, 8#8)]).reg 1 = 8#8 := by decide

theorem witness_CmpReplacesTheFlags : Names 0#8 0 ∧ Names 7#8 7 ∧ (start 252#8 []).pc.toNat ≤ 252 := by decide

/-- A running state; the ill-formed forms at the first index refused and the last, and the well-formed neighbour. -/
theorem witness_InvalidRegisterIndexIsRaisedExactlyForIllFormed :
    (start 0#8 []).status = .running ∧ Instr.wf (.prn 8#8) = false ∧ Instr.wf (.add 0#8 255#8) = false ∧
    Instr.wf (.prn 7#8) = true ∧
    exec (.prn 8#8) (start 0#8 []) =
      .next (raise ⟨.registerIndexInvalid, some 8⟩ [0x47#8, 8#8] (start 0#8 [])) ∧
    FatalWith (reportOf ⟨.registerIndexInvalid, some 8⟩ [0x47#8, 8#8] 0#8)
      (raise ⟨.registerIndexInvalid, some 8⟩ [0x47#8, 8#8] (start 0#8 [])) :=
  ⟨rfl, rfl, rfl, rfl, rfl, rfl, rfl⟩

theorem witness_AdvancePastTheTopIsOutOfBounds :
    Names 0#8 0 ∧ Names 7#8 7 ∧ (start 253#8 []).pc = 253#8 ∧ (start 253#8 []).reg 7 ≠ 0#8 ∧
    (start 254#8 []).pc = 254#8 ∧ (start 254#8 []).fl.getLsbD 0 = false ∧
    (withFlags (start 254#8 []) 1#8).fl = 0x01#8 := by decide

/-- The boundaries of the ranges: addresses 0, 255 and 256. -/
theorem witness_MemoryReadsWhatWasWritten : (0 : Nat) < 256 ∧ (255 : Nat) < 256 ∧ (0 : Nat) ≠ 255 ∧ (256 : Nat) ≤ 256 := by
  decide

/-- A state that is not the reset state: running with flags and memory; and the fatal state after a step. -/
theorem witness_EveryStepKeepsTheInvariant :
    (withFlags (withCells (start 9#8 [(7, 3#8)]) [(9, 1#8), (2, 4#8)]) 4#8).Inv ∧
    step (withFlags (withCells (start 9#8 [(7, 3#8)]) [(9, 1#8), (2, 4#8)]) 4#8) =
      .next ((withFlags (withCells (start 10#8 [(7, 3#8)]) [(9, 1#8), (2, 4#8)]) 4#8).setStatus .halted) ∧
    (raise ⟨.unknownInstruction, some 0⟩ [0#8] State.reset).Inv := ⟨by decide, rfl, by decide⟩

theorem witness_OnlyCmpChangesTheFlags :
    step (withCells State.reset [(0, 0xA7#8)]) = .next (withFlags (withCells (start 3#8 []) [(0, 0xA7#8)]) 1#8) ∧
    (withFlags (withCells (start 3#8 []) [(0, 0xA7#8)]) 1#8).fl ≠ (withCells State.reset [(0, 0xA7#8)]).fl :=
  ⟨rfl, by decide⟩

theorem witness_OnlyPushAndCallChangeMemory :
    step (withCells (start 0#8 [(0, 9#8)]) [(0, 0x45#8)]) =
      .next (withCells (start 2#8 [(0, 9#8), (7, 0xF3#8)]) [(0, 0x45#8), (0xF3, 9#8)]) ∧
    (withCells (start 2#8 [(0, 9#8), (7, 0xF3#8)]) [(0, 0x45#8), (0xF3, 9#8)]).mem.read 0xF3 ≠
      (withCells (start 0#8 [(0, 9#8)]) [(0, 0x45#8)]).mem.read 0xF3 := ⟨rfl, by decide⟩

theorem witness_RegistersChangeAsTheTableSays :
    step (withCells State.reset [(0, 0x69#8), (1, 3#8)]) =
      .next (withCells (start 2#8 [(3, 0xFF#8)]) [(0, 0x69#8), (1, 3#8)]) ∧
    (withCells (start 2#8 [(3, 0xFF#8)]) [(0, 0x69#8), (1, 3#8)]).reg 3 ≠ State.reset.reg 3 := ⟨rfl, by decide⟩

theorem witness_OutGrowsByOneByteAtPrnOnly :
    step (withCells State.reset [(0, 0x47#8), (1, 7#8)]) =
      .next ((withCells (start 2#8 []) [(0, 0x47#8), (1, 7#8)]).emit 0xF4#8) ∧
    ((withCells (start 2#8 []) [(0, 0x47#8), (1, 7#8)]).emit 0xF4#8).out ≠ State.reset.out := ⟨rfl, by decide⟩

theorem witness_HaltedIsReachedOnlyByHlt :
    (withCells State.reset [(0, 1#8)]).status = .running ∧
    step (withCells State.reset [(0, 1#8)]) = .next ((withCells (start 1#8 []) [(0, 1#8)]).setStatus .halted) := ⟨rfl, rfl⟩

/-- A step of a state with output; the same step serves the statements about every step. -/
theorem witness_OutputHasNoInfluence :
    step ((withCells State.reset [(0, 0x47#8), (1, 7#8)]).emit 1#8) =
      .next (((withCells (start 2#8 []) [(0, 0x47#8), (1, 7#8)]).emit 1#8).emit 0xF4#8) := rfl

theorem witness_NoStepChangesTheStackFloor :
    step (withFloor (withCells State.reset [(0, 1#8)]) 16#8) =
      .next ((withFloor (withCells (start 1#8 []) [(0, 1#8)]) 16#8).setStatus .halted) := rfl

/-- Images that end exactly at the top of memory, and the empty image at the last address. -/
theorem witness_LoadBytesPlacesTheImage :
    State.reset.status = .running ∧ State.reset.pc = 0#8 ∧ (254 : Nat) < 256 ∧ 254 + [1#8, 2#8].length ≤ 256 ∧
    (255 : Nat) < 256 ∧ 255 + ([] : List Byte).length ≤ 256 ∧ State.reset.mem.wf = true := by decide

theorem witness_LoadBytesFailsWholeOrIsRefused :
    (State.reset.status = .running ∧ State.reset.pc = 0#8 ∧ (256 ≤ (256 : Nat)) ∧ 256 < 255 + [1#8, 2#8].length) ∧
    (State.reset.setStatus .halted).status ≠ .running ∧ (start 3#8 []).pc ≠ 0#8 := by decide

theorem witness_ObservationGivesRegistersAndCells :
    (7 : Nat) < 8 ∧ 8 ≤ (8 : Nat) ∧ State.reset.mem.read 255 = some 0#8 ∧ 256 ≤ (256 : Nat) := by decide

/-- A run that halts in one step, and one that ends in an error. -/
theorem witness_RunEndsInATerminalStatus :
    ({ core := withCells State.reset [(0, 1#8)], begun := false } : Session).run 1 =
      some (.halted, { core := (withCells (start 1#8 []) [(0, 1#8)]).setStatus .halted, begun := true }) ∧
    (({ core := State.reset, begun := false } : Session).run 1).map (fun p => p.1) = some (.fatal .unknownInstruction) :=
  ⟨rfl, rfl⟩

end Sys2Proof.Tests
end

section
/-! The memory contract (20_memory.md R41, R42): what a read and a write do outside `[0,256)`, and what a read gives after a
write; then the obligation, assembled from them. -/

namespace Sys2Proof.Machine

theorem Memory.read_of_ge {m : Memory} {a : Nat} (h : 256 ≤ a) : m.read a = none := by
  simp [Memory.read, Nat.not_lt.2 h]

theorem Memory.write_of_ge {m : Memory} {a : Nat} {v : Byte} (h : 256 ≤ a) : m.write a v = none := by
  simp [Memory.write, Nat.not_lt.2 h]

theorem loadByte_error {s : State} {a : Nat} (h : 256 ≤ a) :
    loadByte s a = .error { reason := .outOfBounds, info := some a } := by
  simp [loadByte, Memory.read_of_ge h]

theorem storeByte_error {s : State} {a : Nat} {v : Byte} (h : 256 ≤ a) :
    storeByte s a v = .error { reason := .outOfBounds, info := some a } := by
  simp [storeByte, Memory.write_of_ge h]

/-- What `loadByte` gives depends on memory only, and there only on the cell that is read. -/
theorem loadByte_congr {s t : State} {a : Nat} (h : t.mem.read a = s.mem.read a) : loadByte t a = loadByte s a := by
  simp only [loadByte, h]

theorem loadByte_setMem_set_same {s : State} {a : Nat} {v : Byte} (h : a < 256) :
    loadByte (s.setMem (s.mem.set a v)) a = .ok v := by
  rw [loadByte_ok h, State.setMem_mem, Memory.get_set, if_pos rfl]

theorem loadByte_setMem_set_of_ne {s : State} {a b : Nat} {v : Byte} (h : a < 256) (hb : b ≠ a) :
    loadByte (s.setMem (s.mem.set a v)) b = loadByte s b :=
  loadByte_congr (by rw [State.setMem_mem, Memory.read_set _ _ _ _ h, if_neg hb])

/-- Settles O41: an address below 256 takes the success lemmas of read and write with read-after-write, any other address
their error lemmas. -/
theorem memoryReadsWhatWasWritten : Obligations.MemoryReadsWhatWasWritten := by
  refine ⟨fun a ha => ?reset, fun s a v ha => ?inside, fun s a v ha => ?outside⟩
  case reset => exact loadByte_ok ha
  case inside =>
    exact ⟨s.setMem (s.mem.set a v), storeByte_ok ha, loadByte_setMem_set_same ha,
      fun b hb => loadByte_setMem_set_of_ne ha hb, rfl, rfl, rfl, rfl, rfl, rfl, rfl⟩
  case outside => exact ⟨loadByte_error ha, storeByte_error ha⟩

end Sys2Proof.Machine
end

section
/-! The opcode map (30_encoding.md R64, R65): which bytes have a row in it, and that nothing but the row decides whether an
opcode byte with its operand bytes present decodes; then the obligation, assembled from them. -/

namespace Sys2Proof.Machine

/-- The match of `lookupOpcode` has an arm for the 22 values of `opcodeBytes` and for no other. -/
theorem lookupOpcode_isSome_iff (op : Byte) : (lookupOpcode op).isSome ↔ op.toNat ∈ opcodeBytes := by
  unfold lookupOpcode
  split
  case h_23 => simp_all [opcodeBytes]  -- the arm of every other value
  all_goals next hop => simp [hop, opcodeBytes]

theorem decode_of_lookupOpcode_none {op : Byte} (h : lookupOpcode op = none) (bs : List Byte) :
    decode (op :: bs) = .error (.unknownInstruction op) := by
  simp [decode, h]

/-- No row takes more than two operand bytes, so with two present every row decodes. -/
theorem decode_of_lookupOpcode_some {op : Byte} {row : Shape} (h : lookupOpcode op = some row) (a b : Byte)
    (bs : List Byte) : ∃ i rest, decode (op :: a :: b :: bs) = .ok (i, rest) := by
  cases row with
  | zero i => exact ⟨i, a :: b :: bs, by simp [decode, h]⟩
  | one mk => exact ⟨mk a, b :: bs, by simp [decode, h]⟩
  | two mk => exact ⟨mk a b, bs, by simp [decode, h]⟩

theorem decode_ok_iff_lookupOpcode_isSome (op a b : Byte) (bs : List Byte) :
    (∃ i rest, decode (op :: a :: b :: bs) = .ok (i, rest)) ↔ (lookupOpcode op).isSome := by
  cases h : lookupOpcode op with
  | none => simp [decode_of_lookupOpcode_none h]
  | some row => simpa using decode_of_lookupOpcode_some h a b bs

/-- Settles O3: the bytes decode exactly when the opcode byte has a row, and the rows are the 22 opcode bytes. -/
theorem exactlyTheTableOpcodesSelectAnInstruction : Obligations.ExactlyTheTableOpcodesSelectAnInstruction :=
  fun op a b => (decode_ok_iff_lookupOpcode_isSome op a b []).trans (lookupOpcode_isSome_iff op)

end Sys2Proof.Machine
end

section
/-! Decoding and encoding (30_encoding.md R60 to R67). The idea: a row of the opcode map and the encoder say the same bytes
(`lookupOpcode_encodes`), so whatever decodes is the encoding of what it decodes to; lengths and the operand bytes that can be
missing follow from the row's number of operands. -/

namespace Sys2Proof.Machine

/-- Settles O1: `decode` evaluates on each constructor's bytes, whatever the operand bytes and the rest are. -/
theorem decodeOfEncodeGivesTheInstruction : Obligations.DecodeOfEncodeGivesTheInstruction := by
  intro i rest
  cases i <;> rfl

/-- The instructions of a row are encoded with this opcode byte and the row's operands. -/
def RowEncodes (op : Byte) : Shape → Prop
  | .zero i => encode i = [op]
  | .one mk => ∀ a, encode (mk a) = [op, a]
  | .two mk => ∀ a b, encode (mk a b) = [op, a, b]

/-- How many operand bytes a row takes. -/
def operandCount : Shape → Nat
  | .zero _ => 0
  | .one _ => 1
  | .two _ => 2

/-- The decoder's map agrees with the encoder, row by row. -/
theorem lookupOpcode_encodes {op : Byte} {row : Shape} (h : lookupOpcode op = some row) : RowEncodes op row := by
  unfold lookupOpcode at h
  split at h
  case h_23 => cases h
  all_goals
    next hop =>
    obtain ⟨-, rfl⟩ := BitVec.toNat_eq_nat.1 hop
    cases h
    simp [RowEncodes, encode]

/-- Each constructor's bytes have the shape the fetch expects. -/
theorem encodeShape (i : Instr) : Laws.EncodeShape.Statement i := by
  cases i with
  | ldi r imm => exact Laws.EncodeShape.ldi r imm
  | prn r => exact Laws.EncodeShape.prn r
  | hlt => exact Laws.EncodeShape.hlt
  | push r => exact Laws.EncodeShape.push r
  | pop r => exact Laws.EncodeShape.pop r
  | call r => exact Laws.EncodeShape.call r
  | ret => exact Laws.EncodeShape.ret
  | jmp r => exact Laws.EncodeShape.jmp r
  | jeq r => exact Laws.EncodeShape.jeq r
  | jne r => exact Laws.EncodeShape.jne r
  | add a b => exact Laws.EncodeShape.add a b
  | sub a b => exact Laws.EncodeShape.sub a b
  | mul a b => exact Laws.EncodeShape.mul a b
  | div a b => exact Laws.EncodeShape.div a b
  | mod a b => exact Laws.EncodeShape.mod a b
  | cmp a b => exact Laws.EncodeShape.cmp a b
  | and a b => exact Laws.EncodeShape.and a b
  | or a b => exact Laws.EncodeShape.or a b
  | xor a b => exact Laws.EncodeShape.xor a b
  | not a => exact Laws.EncodeShape.not a
  | shl a b => exact Laws.EncodeShape.shl a b
  | shr a b => exact Laws.EncodeShape.shr a b

theorem countField_of_encode {i : Instr} {op : Byte} {operands : List Byte} (h : encode i = op :: operands) :
    countField op = operands.length := by
  obtain ⟨_, _, hbytes, -, hcount, -, -⟩ := encodeShape i
  cases h.symm.trans hbytes
  exact hcount.symm

/-- Bits 7:6 of a known opcode byte are the number of operands of its row (R61). -/
theorem lookupOpcode_countField {op : Byte} {row : Shape} (h : lookupOpcode op = some row) :
    countField op = operandCount row := by
  have hrow := lookupOpcode_encodes h
  cases row with
  | zero i => exact countField_of_encode hrow
  | one mk => exact countField_of_encode (hrow 0#8)
  | two mk => exact countField_of_encode (hrow 0#8 0#8)

theorem countField_eq_extractLsb' (op : Byte) : countField op = (op.extractLsb' 6 2).toNat := by
  have := op.isLt
  simp only [countField, BitVec.toNat_ushiftRight, BitVec.extractLsb'_toNat, Nat.shiftRight_eq_div_pow]
  omega

/-- Everything a successful decoding can be: a row of the map with its operand bytes, and the bytes after them. -/
theorem decode_ok_cases {op : Byte} {bs rest : List Byte} {i : Instr} (h : decode (op :: bs) = .ok (i, rest)) :
    (lookupOpcode op = some (.zero i) ∧ bs = rest) ∨
    (∃ mk a, lookupOpcode op = some (.one mk) ∧ i = mk a ∧ bs = a :: rest) ∨
    (∃ mk a b, lookupOpcode op = some (.two mk) ∧ i = mk a b ∧ bs = a :: b :: rest) := by
  simp only [decode] at h
  split at h
  · cases h
  · next hrow => cases h; exact .inl ⟨hrow, rfl⟩
  · next mk hrow =>
    rcases bs with _ | ⟨a, bs⟩ <;> cases h
    exact .inr (.inl ⟨mk, a, hrow, rfl, rfl⟩)
  · next mk hrow =>
    rcases bs with _ | ⟨a, _ | ⟨b, bs⟩⟩ <;> cases h
    exact .inr (.inr ⟨mk, a, b, hrow, rfl, rfl⟩)

/-- Settles O2: the row the bytes were read from encodes to the same bytes. -/
theorem decodedBytesAreTheEncoding : Obligations.DecodedBytesAreTheEncoding := by
  intro bs rest i h
  cases bs with
  | nil => cases h
  | cons op bs =>
    rcases decode_ok_cases h with ⟨hrow, rfl⟩ | ⟨mk, a, hrow, rfl, rfl⟩ | ⟨mk, a, b, hrow, rfl, rfl⟩
    · rw [show encode i = [op] from lookupOpcode_encodes hrow]; rfl
    · rw [show encode (mk a) = [op, a] from lookupOpcode_encodes hrow a]; rfl
    · rw [show encode (mk a b) = [op, a, b] from lookupOpcode_encodes hrow a b]; rfl

/-- Settles O4: the row's operand count is both the count field and the number of bytes read after the opcode byte. -/
theorem lengthIsTheCountFieldPlusOne : Obligations.LengthIsTheCountFieldPlusOne := by
  intro op bs rest i h
  rw [← countField_eq_extractLsb']
  rcases decode_ok_cases h with ⟨hrow, rfl⟩ | ⟨mk, a, hrow, rfl, rfl⟩ | ⟨mk, a, b, hrow, rfl, rfl⟩ <;>
    simp [lookupOpcode_countField hrow, operandCount]

/-- Settles O5, by evaluating the decoder on the words. -/
theorem wordsOfTheTableDecode : Obligations.WordsOfTheTableDecode := by
  unfold Obligations.WordsOfTheTableDecode
  decide

theorem lookupOpcode_eq_none_iff (op : Byte) : lookupOpcode op = none ↔ op.toNat ∉ opcodeBytes := by
  rw [← lookupOpcode_isSome_iff, Option.not_isSome_iff_eq_none]

end Sys2Proof.Machine
end

section
/-! What an instruction does, said once as an equation (40_engine_cycle.md R86 to R90, 60_exceptions.md R175): `exec i s` raises
`firstError i s` if there is one, and otherwise commits `commit i s`. Every shared operation is first put into the same form,
"an error if any, else a value" (`raising`), and the handlers are sequences of such operations. -/

namespace Sys2Proof.Machine

/-! ### An error if there is one, else a value -/

/-- The work that raises the error if there is one, and gives the value otherwise. -/
def raising {α : Type} (e : Option Trap) (a : α) : Attempt α :=
  match e with
  | some e => .error e
  | none => .ok a

theorem raising_none {α : Type} (a : α) : raising none a = .ok a := rfl

theorem raising_some {α : Type} (e : Trap) (a : α) : raising (some e) a = .error e := rfl

/-- In a sequence the first error is the one raised; the second part matters only where the first raises none. -/
theorem raising_bind {α β : Type} {e e' : Option Trap} {a : α} {b : β} {x : Attempt α} {f : α → Attempt β}
    (hx : x = raising e a) (hf : e = none → f a = raising e' b) : (x >>= f) = raising (e.or e') b := by
  subst hx
  cases e with
  | some e => rfl
  | none => exact hf rfl

theorem ok_bind_raising {α β : Type} {e : Option Trap} {a : α} {b : β} {x : Attempt α} {f : α → Attempt β}
    (hx : x = .ok a) (hf : f a = raising e b) : (x >>= f) = raising e b := by
  subst hx
  exact hf

theorem raising_bind_ok {α β : Type} {e : Option Trap} {a : α} {x : Attempt α} {f : α → β}
    (hx : x = raising e a) : (x >>= fun a => .ok (f a)) = raising e (f a) :=
  (raising_bind hx fun _ => (raising_none (f a)).symm).trans (by rw [Option.or_none])

theorem raising_or_assoc {α : Type} (e e' e'' : Option Trap) (a : α) :
    raising (e.or (e'.or e'')) a = raising ((e.or e').or e'') a := by
  rw [Option.or_assoc]

/-! ### The shared operations -/

/-- The register an operand byte names; where it names none (R63), `indexError` is raised and this is not used. -/
def registerNamed (r : Byte) : RegIdx := Fin.ofNat 8 r.toNat

theorem registerNamed_val {r : Byte} (h : r.toNat < 8) : (registerNamed r).val = r.toNat := Nat.mod_eq_of_lt h

theorem registerNamed_eq {r : Byte} {i : RegIdx} (h : Names r i) : registerNamed r = i :=
  Fin.ext ((registerNamed_val (h ▸ i.isLt)).trans h)

theorem indexError_of_lt {r : Byte} (h : r.toNat < 8) : indexError r = none := if_neg (by omega)

theorem indexError_of_names {r : Byte} {i : RegIdx} (h : Names r i) : indexError r = none :=
  indexError_of_lt (h ▸ i.isLt)

theorem indexError_eq_none_iff {r : Byte} : indexError r = none ↔ r.toNat < 8 := by
  unfold indexError
  split <;> simp <;> omega

theorem regAt_eq {s : State} {r : Byte} (h : indexError r = none) : s.regAt r = s.reg (registerNamed r) := by
  have hlt := indexError_eq_none_iff.1 h
  rw [State.regAt, dif_pos hlt, registerNamed_eq (i := ⟨r.toNat, hlt⟩) rfl]

theorem registerOperand_eq (r : Byte) : registerOperand r = raising (indexError r) (registerNamed r) := by
  by_cases h : r.toNat < 8
  · rw [indexError_of_lt h, registerOperand_ok (registerNamed_val h).symm, raising_none]
  · rw [registerOperand_error (by omega), indexError, if_pos (by omega), raising_some]

theorem registerOperands_eq (a b : Byte) : registerOperands a b =
    raising ((indexError a).or (indexError b)) (registerNamed a, registerNamed b) :=
  raising_bind (registerOperand_eq a) fun _ => raising_bind_ok (registerOperand_eq b)

/-- The address `n` bytes after the opcode byte, as a value of PC. -/
def State.pcPlus (s : State) (n : Nat) : Byte := BitVec.ofNat 8 (s.pc.toNat + n)

theorem State.pcPlus_toNat {s : State} {n : Nat} (h : s.pc.toNat + n < 256) :
    (s.pcPlus n).toNat = s.pc.toNat + n := by
  rw [State.pcPlus, BitVec.toNat_ofNat]
  exact Nat.mod_eq_of_lt h

theorem byteAddress_eq (s : State) (n : Nat) :
    byteAddress (s.pc.toNat + n) = raising (pastTopError n s) (s.pcPlus n) := by
  rcases Nat.lt_or_ge (s.pc.toNat + n) 256 with h | h
  · rw [byteAddress_ok h, pastTopError, if_neg (by omega), raising_none, State.pcPlus]
  · rw [byteAddress_error h, pastTopError, if_pos (by omega), raising_some]

theorem fallThrough_eq (n : Nat) (s : State) :
    fallThrough n s = raising (pastTopError (n + 1) s) (s.setPc (s.pcPlus (n + 1))) :=
  raising_bind_ok (byteAddress_eq s (n + 1))

theorem decrementSp_eq (s : State) : decrementSp s = raising (overflowError s) (s.setReg 7 (s.reg 7 - 1#8)) := by
  rcases Nat.lt_or_ge s.config.stackFloor.toNat (s.reg 7).toNat with h | h
  · rw [decrementSp_ok h, overflowError, if_neg (by omega), raising_none]
  · rw [decrementSp_error h, overflowError, if_pos (by omega), raising_some]

theorem incrementSp_eq (s : State) : incrementSp s = raising (underflowError (s.reg 7)) (s.setReg 7 (s.reg 7 + 1#8)) := by
  by_cases h : (s.reg 7).toNat = 255
  · rw [incrementSp_error h, underflowError, if_pos h, raising_some]
  · have := (s.reg 7).isLt
    rw [incrementSp_ok (by omega), underflowError, if_neg h, raising_none]

/-- The result an ALU instruction writes; DIV and MOD by 0 have none, raise, and do not use it. -/
def aluValue (op : AluOp) (a b : Byte) : Byte := (alu op a b).getD 0#8

theorem aluResult_eq {op : AluOp} (a b : Byte) (h : op ≠ .div ∧ op ≠ .mod) :
    aluResult op a b = .ok (aluValue op a b) := by
  cases hv : alu op a b with
  | some v => rw [aluResult_ok hv, aluValue, hv]; rfl
  | none => exact absurd ((alu_none_iff op a b).1 hv).1 (by simp [h])

theorem aluResult_divisor_eq {op : AluOp} {s : State} {b : Byte} (a : Byte) (h : op = .div ∨ op = .mod)
    (hb : indexError b = none) : aluResult op a (s.reg (registerNamed b)) =
      raising (divisorError b s) (aluValue op a (s.reg (registerNamed b))) := by
  rw [divisorError, regAt_eq hb]
  cases hv : alu op a (s.reg (registerNamed b)) with
  | some v =>
    have : s.reg (registerNamed b) ≠ 0#8 := fun h0 => by
      rw [(alu_none_iff _ _ _).2 ⟨h, by simp [h0]⟩] at hv
      cases hv
    rw [aluResult_ok hv, if_neg this, aluValue, hv]
    rfl
  | none =>
    rw [aluResult_error hv, if_pos (BitVec.eq_of_toNat_eq ((alu_none_iff _ _ _).1 hv).2), raising_some]

/-! ### The committed state -/

/-- `regA ← ALU(op, regA, regB)`, then the advance by `n`. -/
def State.aluWritten (s : State) (op : AluOp) (a b : Byte) (n : Nat) : State :=
  (s.setReg (registerNamed a) (aluValue op (s.reg (registerNamed a)) (s.reg (registerNamed b)))).setPc (s.pcPlus n)

/-- The stack pointer decremented, and the byte stored at the cell it then addresses. -/
def State.pushed (s : State) (v : Byte) : State :=
  (s.setReg 7 (s.reg 7 - 1#8)).setMem (s.mem.set (s.reg 7 - 1#8).toNat v)

/-- What an instruction commits when it raises no error. -/
def commit (i : Instr) (s : State) : State :=
  match i with
  | .ldi r imm => (s.setReg (registerNamed r) imm).setPc (s.pcPlus 3)
  | .prn r => (s.emit (s.reg (registerNamed r))).setPc (s.pcPlus 2)
  | .hlt => (fallThroughHalt s).setStatus .halted
  | .push r => (s.pushed ((s.setReg 7 (s.reg 7 - 1#8)).reg (registerNamed r))).setPc (s.pcPlus 2)
  | .pop r =>
    ((s.setReg (registerNamed r) (s.mem.get (s.reg 7).toNat)).setReg 7 (popPointer r s + 1#8)).setPc (s.pcPlus 2)
  | .call r => (s.pushed (s.pcPlus 2)).setPc ((s.setReg 7 (s.reg 7 - 1#8)).reg (registerNamed r))
  | .ret => (s.setReg 7 (s.reg 7 + 1#8)).setPc (s.mem.get (s.reg 7).toNat)
  | .jmp r => s.setPc (s.reg (registerNamed r))
  | .jeq r => s.setPc (if s.fl.getLsbD 0 then s.reg (registerNamed r) else s.pcPlus 2)
  | .jne r => s.setPc (if s.fl ≠ 0x01#8 then s.reg (registerNamed r) else s.pcPlus 2)
  | .add a b => s.aluWritten .add a b 3
  | .sub a b => s.aluWritten .sub a b 3
  | .mul a b => s.aluWritten .mul a b 3
  | .div a b => s.aluWritten .div a b 3
  | .mod a b => s.aluWritten .mod a b 3
  | .cmp a b => (s.setFl (compareFlags (s.reg (registerNamed a)) (s.reg (registerNamed b)))).setPc (s.pcPlus 3)
  | .and a b => s.aluWritten .and a b 3
  | .or a b => s.aluWritten .or a b 3
  | .xor a b => s.aluWritten .xor a b 3
  | .not a => s.aluWritten .not a a 2
  | .shl a b => s.aluWritten .shl a b 3
  | .shr a b => s.aluWritten .shr a b 3

/-! ### The instructions -/

theorem aluTwoRegisters_eq {op : AluOp} (a b : Byte) (s : State) (h : op ≠ .div ∧ op ≠ .mod) :
    aluTwoRegisters op a b s =
      raising (((indexError a).or (indexError b)).or (pastTopError 3 s)) (s.aluWritten op a b 3) :=
  raising_bind (registerOperands_eq a b) fun _ => ok_bind_raising (aluResult_eq _ _ h) (fallThrough_eq 2 _)

theorem aluTwoRegisters_divisor_eq {op : AluOp} (a b : Byte) (s : State) (h : op = .div ∨ op = .mod) :
    aluTwoRegisters op a b s =
      raising ((((indexError a).or (indexError b)).or (divisorError b s)).or (pastTopError 3 s))
        (s.aluWritten op a b 3) := by
  rw [← raising_or_assoc]
  exact raising_bind (registerOperands_eq a b) fun hab =>
    raising_bind (aluResult_divisor_eq _ h (Option.or_eq_none_iff.1 hab).2) fun _ => fallThrough_eq 2 _

theorem popPointer_eq {s : State} {r : Byte} (h : indexError r = none) :
    (s.setReg (registerNamed r) (s.mem.get (s.reg 7).toNat)).reg 7 = popPointer r s := by
  have h7 : (7 : RegIdx) = registerNamed r ↔ r.toNat = 7 := by
    rw [← registerNamed_val (indexError_eq_none_iff.1 h), Fin.ext_iff]
    exact eq_comm
  simp only [State.setReg_reg, popPointer, h7]

theorem conditional_eq {c : Prop} [Decidable c] (s : State) (target : Byte) :
    (if c then .ok (s.setPc target) else fallThrough 1 s) =
      raising (if c then none else pastTopError 2 s) (s.setPc (if c then target else s.pcPlus 2)) := by
  split
  · rfl
  · exact fallThrough_eq 1 s

theorem exec_eq_of_work {i : Instr} {s : State} {work : Attempt State} (hexec : exec i s = complete i s work)
    (hwork : work = raising (firstError i s) (commit i s)) :
    exec i s = complete i s (raising (firstError i s) (commit i s)) := hwork ▸ hexec

/-- The whole meaning of every instruction: the first error in the spec's order is raised, and with none the instruction
commits. -/
theorem exec_eq (i : Instr) (s : State) : exec i s = complete i s (raising (firstError i s) (commit i s)) := by
  cases i with
  | ldi r imm => exact exec_eq_of_work rfl (raising_bind (registerOperand_eq r) fun _ => fallThrough_eq 2 _)
  | prn r => exact exec_eq_of_work rfl (raising_bind (registerOperand_eq r) fun _ => fallThrough_eq 1 _)
  | hlt => rfl
  | push r =>
    refine exec_eq_of_work rfl (Eq.trans ?_ (raising_or_assoc _ _ _ _))
    exact raising_bind (registerOperand_eq r) fun _ => raising_bind (decrementSp_eq s) fun _ =>
      ok_bind_raising (storeAtSp_ok _ _) (fallThrough_eq 1 _)
  | pop r =>
    refine exec_eq_of_work rfl (Eq.trans ?_ (raising_or_assoc _ _ _ _))
    exact raising_bind (registerOperand_eq r) fun hr => ok_bind_raising (loadAtSp_ok s) <|
      raising_bind (popPointer_eq hr ▸ incrementSp_eq _) fun _ => fallThrough_eq 1 _
  | call r =>
    refine exec_eq_of_work rfl (Eq.trans ?_ (raising_or_assoc _ _ _ _))
    refine raising_bind (registerOperand_eq r) fun _ => raising_bind (decrementSp_eq s) fun _ => ?_
    simp only [storeAtSp_ok, attempt_ok_bind]
    exact raising_bind_ok (byteAddress_eq s 2)
  | ret => exact exec_eq_of_work rfl (ok_bind_raising (loadAtSp_ok s) (raising_bind_ok (incrementSp_eq s)))
  | jmp r => exact exec_eq_of_work rfl (raising_bind_ok (registerOperand_eq r))
  | jeq r => exact exec_eq_of_work rfl (raising_bind (registerOperand_eq r) fun _ => conditional_eq s _)
  | jne r =>
    refine exec_eq_of_work rfl (raising_bind (registerOperand_eq r) fun _ => ?_)
    simp only [notExactlyEqual, decide_eq_true_eq]
    exact conditional_eq s _
  | cmp a b =>
    exact exec_eq_of_work rfl (raising_bind (registerOperands_eq a b) fun _ =>
      ok_bind_raising (aluResult_eq _ _ (by decide)) (fallThrough_eq 2 _))
  | not a =>
    exact exec_eq_of_work rfl (raising_bind (registerOperand_eq a) fun _ =>
      ok_bind_raising (aluResult_eq _ _ (by decide)) (fallThrough_eq 1 _))
  | div a b => exact exec_eq_of_work rfl (aluTwoRegisters_divisor_eq a b s (.inl rfl))
  | mod a b => exact exec_eq_of_work rfl (aluTwoRegisters_divisor_eq a b s (.inr rfl))
  | add a b => exact exec_eq_of_work rfl (aluTwoRegisters_eq a b s (by simp))
  | sub a b => exact exec_eq_of_work rfl (aluTwoRegisters_eq a b s (by simp))
  | mul a b => exact exec_eq_of_work rfl (aluTwoRegisters_eq a b s (by simp))
  | and a b => exact exec_eq_of_work rfl (aluTwoRegisters_eq a b s (by simp))
  | or a b => exact exec_eq_of_work rfl (aluTwoRegisters_eq a b s (by simp))
  | xor a b => exact exec_eq_of_work rfl (aluTwoRegisters_eq a b s (by simp))
  | shl a b => exact exec_eq_of_work rfl (aluTwoRegisters_eq a b s (by simp))
  | shr a b => exact exec_eq_of_work rfl (aluTwoRegisters_eq a b s (by simp))

theorem exec_of_firstError {i : Instr} {s : State} {e : Trap} (h : firstError i s = some e) :
    exec i s = .next (raise e (encode i) s) := by
  rw [exec_eq, h, raising_some, complete_error]

theorem exec_of_no_error {i : Instr} {s : State} (h : firstError i s = none) : exec i s = .next (commit i s) := by
  rw [exec_eq, h, raising_none, complete_ok]

end Sys2Proof.Machine
end

section
/-! Which error an instruction raises (60_exceptions.md R166 to R175): when each single check raises, what a raise leaves, and
that the register checks are exactly well-formedness; then the obligations about errors. -/

namespace Sys2Proof.Machine

/-! ### When each check raises -/

theorem pastTopError_of_lt {n : Nat} {s : State} (h : s.pc.toNat + n < 256) : pastTopError n s = none :=
  if_neg (by omega)

theorem pastTopError_of_eq {n : Nat} {s : State} (h : s.pc.toNat + n = 256) :
    pastTopError n s = some ⟨.outOfBounds, some 256⟩ := by
  rw [pastTopError, if_pos (by omega), h]
  rfl

theorem overflowError_of_lt {s : State} (h : s.config.stackFloor.toNat < (s.reg 7).toNat) : overflowError s = none :=
  if_neg (by omega)

theorem overflowError_of_le {s : State} (h : (s.reg 7).toNat ≤ s.config.stackFloor.toNat) :
    overflowError s = some ⟨.stackOverflow, some (((s.reg 7).toNat : Int) - 1)⟩ := if_pos (by omega)

theorem floor_lt_of_no_overflow {s : State} (h : overflowError s = none) :
    s.config.stackFloor.toNat < (s.reg 7).toNat := by
  by_contra hle
  rw [overflowError_of_le (by omega)] at h
  cases h

theorem underflowError_of_lt {v : Byte} (h : v.toNat < 255) : underflowError v = none := if_neg (by omega)

theorem underflowError_of_eq {v : Byte} (h : v.toNat = 255) : underflowError v = some ⟨.stackUnderflow, some 256⟩ :=
  if_pos h

theorem regAt_of_names {s : State} {r : Byte} {i : RegIdx} (h : Names r i) : s.regAt r = s.reg i := by
  rw [regAt_eq (indexError_of_names h), registerNamed_eq h]

theorem divisorError_of_ne {s : State} {b : Byte} {j : RegIdx} (hb : Names b j) (h : s.reg j ≠ 0#8) :
    divisorError b s = none := if_neg (regAt_of_names hb ▸ h)

theorem divisorError_of_eq {s : State} {b : Byte} {j : RegIdx} (hb : Names b j) (h : s.reg j = 0#8) :
    divisorError b s = some ⟨.divideByZero, none⟩ := if_pos (regAt_of_names hb ▸ h)

/-- The pointer a POP of another register than R7 increments is R7. -/
theorem popPointer_of_ne {s : State} {r : Byte} {d : RegIdx} (h : Names r d) (hd : d ≠ 7) :
    popPointer r s = s.reg 7 := if_neg fun h7 => hd (Fin.ext (h ▸ h7))

/-! ### What a raise leaves -/

theorem raise_commitsNothing (e : Trap) (bs : List Byte) (s : State) : CommitsNothing s (raise e bs s) :=
  ⟨fun _ => rfl, rfl, rfl, fun _ => rfl, rfl, rfl⟩

theorem raise_fatalWith (e : Trap) (op : Byte) (operands : List Byte) (s : State) :
    FatalWith (reportAt s e.reason op operands e.info) (raise e (op :: operands) s) := ⟨rfl, rfl⟩

theorem step_raise (e : Trap) (bs : List Byte) (s : State) : step (raise e bs s) = .next (raise e bs s) :=
  step_of_terminal (by simp)

/-- An instruction with an error commits nothing and ends in `Fatal`, with all its bytes in the report. -/
theorem exec_raises {i : Instr} {s : State} {op : Byte} {operands : List Byte} {reason : FatalReason} {info : Option Int}
    (hbytes : encode i = op :: operands) (h : firstError i s = some ⟨reason, info⟩) :
    ∃ t, exec i s = .next t ∧ CommitsNothing s t ∧ FatalWith (reportAt s reason op operands info) t :=
  ⟨_, exec_of_firstError h, raise_commitsNothing _ _ s, hbytes ▸ raise_fatalWith _ op operands s⟩

theorem exec_raises_report {i : Instr} {s : State} {reason : FatalReason} {info : Option Int}
    (h : firstError i s = some ⟨reason, info⟩) : ∃ t r, exec i s = .next t ∧ CommitsNothing s t ∧ FatalWith r t ∧
      r.reason = reason ∧ r.info = info :=
  ⟨_, _, exec_of_firstError h, raise_commitsNothing _ _ s, ⟨rfl, rfl⟩, rfl, rfl⟩

/-! ### What a commit leaves of status and report -/

theorem commit_report (i : Instr) (s : State) : (commit i s).report = s.report := by
  cases i <;> rfl

theorem commit_config (i : Instr) (s : State) : (commit i s).config = s.config := by
  cases i <;> rfl

theorem commit_status {i : Instr} (h : i ≠ .hlt) (s : State) : (commit i s).status = s.status := by
  cases i
  case hlt => exact absurd rfl h
  all_goals rfl

theorem commit_hlt_status (s : State) : (commit .hlt s).status = .halted := rfl

theorem commit_status_ne_fatal (i : Instr) {s : State} (hs : s.status = .running) : (commit i s).status ≠ .fatal := by
  by_cases hi : i = .hlt
  · subst hi
    exact nofun
  · rw [commit_status hi, hs]
    exact nofun

/-- Settles O14: an error is raised as it is, and the commit without one changes no report and, but for HLT, no status. -/
theorem errorsAreRaisedInTheSpecsOrder : Obligations.ErrorsAreRaisedInTheSpecsOrder := by
  refine fun i s => ⟨fun e h => ?_, fun h => ⟨_, exec_of_no_error h, commit_report i s, ?_⟩⟩
  · obtain ⟨op, operands, hbytes, -⟩ := encodeShape i
    rw [hbytes]
    exact exec_raises hbytes h
  · by_cases hi : i = .hlt
    · subst hi
      exact .inl ⟨rfl, commit_hlt_status s⟩
    · exact .inr ⟨hi, commit_status hi s⟩

/-- Settles O21: past the index check, the stack check is the first error. -/
theorem stackBoundsAreChecked : Obligations.StackBoundsAreChecked := by
  refine fun s r i hr => ⟨fun h => ⟨exec_raises rfl ?_, exec_raises rfl ?_⟩,
    fun h => ⟨fun hi => exec_raises rfl ?_, exec_raises rfl ?_⟩⟩
  · simp [firstError, indexError_of_names hr, overflowError_of_le h]
  · simp [firstError, indexError_of_names hr, overflowError_of_le h]
  · simp [firstError, indexError_of_names hr, popPointer_of_ne hr hi, underflowError_of_eq h]
  · exact underflowError_of_eq h

/-- Settles O24: with no stack error the return address 256 is the first error. -/
theorem callAtTheTopHasNoReturnAddress : Obligations.CallAtTheTopHasNoReturnAddress := by
  intro s r i hr hfloor hpc
  have htop : pastTopError 2 s = some ⟨.outOfBounds, some 256⟩ := pastTopError_of_eq (by rw [hpc]; rfl)
  refine exec_raises rfl ?_
  simp [firstError, indexError_of_names hr, overflowError_of_lt hfloor, htop]

/-- Settles O34: past the index checks, the zero divisor is the first error; it is raised and the run is over. -/
theorem divideByZeroTerminatesTheRun : Obligations.DivideByZeroTerminatesTheRun := by
  intro s a b i j ha hb hzero x hx
  have herr : firstError x s = some ⟨.divideByZero, none⟩ := by
    rcases List.mem_pair.1 hx with rfl | rfl <;>
      simp [firstError, indexError_of_names ha, indexError_of_names hb, divisorError_of_eq hb hzero]
  exact ⟨_, _, exec_of_firstError herr, ⟨rfl, rfl⟩, rfl, rfl, step_raise _ _ s⟩

/-- Settles O40: with every other check passed, the advance to address 256 is the first error. -/
theorem advancePastTheTopIsOutOfBounds : Obligations.AdvancePastTheTopIsOutOfBounds := by
  intro s a b imm i j ha hb
  have ha := indexError_of_names ha
  have hbe := indexError_of_names hb
  have top3 : s.pc = 253#8 → pastTopError 3 s = some ⟨.outOfBounds, some 256⟩ :=
    fun hpc => pastTopError_of_eq (by rw [hpc]; rfl)
  have top2 : s.pc = 254#8 → pastTopError 2 s = some ⟨.outOfBounds, some 256⟩ :=
    fun hpc => pastTopError_of_eq (by rw [hpc]; rfl)
  refine ⟨fun hpc x hx => exec_raises_report ?_, fun hpc hj x hx => exec_raises_report ?_,
    fun hpc x hx => exec_raises_report ?_, fun hpc hfl => exec_raises_report ?_, fun hpc hfl => exec_raises_report ?_⟩
  · fin_cases hx <;> simp [firstError, ha, hbe, top3 hpc]
  · fin_cases hx <;> simp [firstError, ha, hbe, divisorError_of_ne hb hj, top3 hpc]
  · fin_cases hx <;> simp [firstError, ha, top2 hpc]
  · simp only [firstError, ha, hfl]
    exact top2 hpc
  · simp only [firstError, ha, hfl]
    exact top2 hpc

/-! ### The register checks are well-formedness -/

/-- The operand bytes that must name registers: all of them, but for LDI's immediate (R85). -/
def registerBytes : Instr → List Byte
  | .ldi r _ => [r]
  | i => (encode i).tail

theorem wf_eq_all_registerBytes (i : Instr) : i.wf = (registerBytes i).all validIndex := by
  cases i <;> simp [Instr.wf, registerBytes, encode]

theorem registerBytes_prefix (i : Instr) : registerBytes i <+: (encode i).tail := by
  cases i
  case ldi r imm => exact ⟨[imm], rfl⟩
  all_goals exact List.prefix_rfl

theorem validIndex_eq_true_iff (r : Byte) : validIndex r = true ↔ indexError r = none := by
  rw [indexError_eq_none_iff, validIndex, decide_eq_true_eq]

/-- The reason of the error, if there is one, is not `RegisterIndexInvalid`. -/
def OtherReason (later : Option Trap) : Prop := ∀ e, later = some e → e.reason ≠ .registerIndexInvalid

theorem OtherReason.none : OtherReason none := by
  intro e h
  cases h

theorem OtherReason.or {e e' : Option Trap} (h : OtherReason e) (h' : OtherReason e') : OtherReason (e.or e') := by
  cases e with
  | none => exact h'
  | some e => exact h

theorem OtherReason.ite {c : Prop} [Decidable c] {e e' : Option Trap} (h : OtherReason e) (h' : OtherReason e') :
    OtherReason (if c then e else e') := by
  split
  · exact h
  · exact h'

theorem OtherReason.some {e : Trap} (h : e.reason ≠ .registerIndexInvalid) : OtherReason (some e) := by
  intro e' he
  cases he
  exact h

theorem OtherReason.pastTop (n : Nat) (s : State) : OtherReason (pastTopError n s) := .ite (.some nofun) .none

theorem OtherReason.overflow (s : State) : OtherReason (overflowError s) := .ite (.some nofun) .none

theorem OtherReason.underflow (v : Byte) : OtherReason (underflowError v) := .ite (.some nofun) .none

theorem OtherReason.divisor (b : Byte) (s : State) : OtherReason (divisorError b s) := .ite (.some nofun) .none

/-- The first register byte above 7 is the first error, and every error after the register checks has another reason. -/
def IndexCheckedFirst (i : Instr) (s : State) : Prop :=
  ∃ later, firstError i s = ((registerBytes i).findSome? indexError).or later ∧ OtherReason later

theorem indexCheckedFirst_of_one {i : Instr} {s : State} {r : Byte} {later : Option Trap} (hr : registerBytes i = [r])
    (he : firstError i s = (indexError r).or later) (h : OtherReason later) : IndexCheckedFirst i s :=
  ⟨later, by rw [he, hr, List.findSome?_singleton], h⟩

theorem indexCheckedFirst_of_two {i : Instr} {s : State} {a b : Byte} {later : Option Trap}
    (hr : registerBytes i = [a, b]) (he : firstError i s = ((indexError a).or (indexError b)).or later)
    (h : OtherReason later) : IndexCheckedFirst i s := by
  refine ⟨later, ?_, h⟩
  rw [he, hr, List.findSome?_cons, List.findSome?_singleton]
  cases indexError a <;> rfl

theorem firstError_indexCheckedFirst (i : Instr) (s : State) : IndexCheckedFirst i s := by
  cases i with
  | ldi => exact indexCheckedFirst_of_one rfl rfl (.pastTop 3 s)
  | prn => exact indexCheckedFirst_of_one rfl rfl (.pastTop 2 s)
  | hlt => exact ⟨none, rfl, .none⟩
  | push => exact indexCheckedFirst_of_one rfl Option.or_assoc (.or (.overflow s) (.pastTop 2 s))
  | pop => exact indexCheckedFirst_of_one rfl Option.or_assoc (.or (.underflow _) (.pastTop 2 s))
  | call => exact indexCheckedFirst_of_one rfl Option.or_assoc (.or (.overflow s) (.pastTop 2 s))
  | ret => exact ⟨_, rfl, .underflow _⟩
  | jmp => exact indexCheckedFirst_of_one rfl Option.or_none.symm .none
  | jeq => exact indexCheckedFirst_of_one rfl rfl (.ite .none (.pastTop 2 s))
  | jne => exact indexCheckedFirst_of_one rfl rfl (.ite .none (.pastTop 2 s))
  | div _ b => exact indexCheckedFirst_of_two rfl Option.or_assoc (.or (.divisor b s) (.pastTop 3 s))
  | mod _ b => exact indexCheckedFirst_of_two rfl Option.or_assoc (.or (.divisor b s) (.pastTop 3 s))
  | not => exact indexCheckedFirst_of_one rfl rfl (.pastTop 2 s)
  | _ => exact indexCheckedFirst_of_two rfl rfl (.pastTop 3 s)

/-- The error raised is `RegisterIndexInvalid` exactly when it comes from the register checks. -/
theorem firstError_index_iff (i : Instr) (s : State) (e : Trap) :
    (firstError i s = some e ∧ e.reason = .registerIndexInvalid) ↔ (registerBytes i).findSome? indexError = some e := by
  obtain ⟨later, hfirst, hlater⟩ := firstError_indexCheckedFirst i s
  rw [hfirst, Option.or_eq_some_iff]
  constructor
  · rintro ⟨h | ⟨-, h⟩, hreason⟩
    · exact h
    · exact absurd hreason (hlater e h)
  · intro h
    obtain ⟨r, -, hr⟩ := List.exists_of_findSome?_eq_some h
    refine ⟨.inl h, ?_⟩
    unfold indexError at hr
    split at hr <;> cases hr
    rfl

theorem wf_eq_false_iff (i : Instr) : i.wf = false ↔ ∃ e, (registerBytes i).findSome? indexError = some e := by
  rw [← Option.isSome_iff_exists, ← Option.ne_none_iff_isSome, Ne, List.findSome?_eq_none_iff, ← Bool.not_eq_true,
    wf_eq_all_registerBytes, List.all_eq_true]
  simp only [validIndex_eq_true_iff]

/-- A running instruction ends in `Fatal` only by raising its first error. -/
theorem exec_fatal_inv {i : Instr} {s t : State} {r : Report} (hs : s.status = .running) (h : exec i s = .next t)
    (hf : FatalWith r t) : ∃ e, firstError i s = some e ∧ r.reason = e.reason ∧ r.info = e.info := by
  cases he : firstError i s with
  | some e =>
    rw [exec_of_firstError he] at h
    cases h
    cases hf.2
    exact ⟨e, rfl, rfl, rfl⟩
  | none =>
    rw [exec_of_no_error he] at h
    cases h
    exact absurd hf.1 (commit_status_ne_fatal i hs)

/-- Settles O39: the error raised is the register checks' own exactly when one of them fails, and then it names the byte. -/
theorem invalidRegisterIndexIsRaisedExactlyForIllFormed :
    Obligations.InvalidRegisterIndexIsRaisedExactlyForIllFormed := by
  refine fun i s hs => ⟨?_, fun t r hexec hf hreason => ?_⟩
  · rw [wf_eq_false_iff]
    constructor
    · rintro ⟨t, r, hexec, hf, hreason⟩
      obtain ⟨e, he, hre, -⟩ := exec_fatal_inv hs hexec hf
      exact ⟨e, (firstError_index_iff i s e).1 ⟨he, hre ▸ hreason⟩⟩
    · rintro ⟨e, he⟩
      obtain ⟨hfirst, hreason⟩ := (firstError_index_iff i s e).2 he
      exact ⟨_, _, exec_of_firstError hfirst, ⟨rfl, rfl⟩, hreason⟩
  · obtain ⟨e, he, hre, hinfo⟩ := exec_fatal_inv hs hexec hf
    obtain ⟨x, hx, hxe⟩ := List.exists_of_findSome?_eq_some ((firstError_index_iff i s e).1 ⟨he, hre ▸ hreason⟩)
    unfold indexError at hxe
    split at hxe <;> cases hxe
    next hgt => exact ⟨x, (registerBytes_prefix i).subset hx, hgt, hinfo⟩

end Sys2Proof.Machine
end

section
/-! The ALU's table (44_alu.md R136): each operation on integers, narrowed to a byte, is the operation on bytes. -/

namespace Sys2Proof.Machine

theorem alu_add (a b : Byte) : alu .add a b = some (a + b) := by
  simp [alu, BitVec.ofNat_add]

theorem alu_sub (a b : Byte) : alu .sub a b = some (a - b) := by
  refine congrArg some (BitVec.eq_of_toNat_eq ?_)
  rw [BitVec.toNat_ofInt, BitVec.toNat_sub]
  omega

theorem alu_mul (a b : Byte) : alu .mul a b = some (a * b) := by
  simp [alu, BitVec.ofNat_mul]

theorem toNat_ne_zero {b : Byte} (h : b ≠ 0#8) : b.toNat ≠ 0 := fun h0 => h (BitVec.eq_of_toNat_eq h0)

theorem alu_div {a b : Byte} (h : b ≠ 0#8) : alu .div a b = some (a / b) := by
  rw [alu, if_neg (toNat_ne_zero h), BitVec.udiv_def]

theorem alu_mod {a b : Byte} (h : b ≠ 0#8) : alu .mod a b = some (a % b) := by
  rw [alu, if_neg (toNat_ne_zero h), BitVec.umod_def]

theorem alu_not (a b : Byte) : alu .not a b = some (~~~a) := by
  refine congrArg some (BitVec.eq_of_toNat_eq ?_)
  rw [BitVec.toNat_not, BitVec.toNat_ofNat]
  omega

/-- From an amount of 8 on, the shift of the byte itself is 0 as well. -/
theorem alu_shl (a b : Byte) : alu .shl a b = some (a <<< b.toNat) := by
  rw [alu]
  split
  · refine congrArg some (BitVec.eq_of_toNat_eq ?_)
    rw [BitVec.toNat_shiftLeft, BitVec.toNat_ofNat, Nat.shiftLeft_eq]
  · rw [BitVec.shiftLeft_eq_zero (by omega)]

theorem alu_shr (a b : Byte) : alu .shr a b = some (a >>> b.toNat) := by
  rw [alu]
  split
  · refine congrArg some (BitVec.eq_of_toNat_eq ?_)
    rw [BitVec.toNat_ushiftRight, BitVec.toNat_ofNat, Nat.shiftRight_eq_div_pow]
    exact Nat.mod_eq_of_lt (Nat.lt_of_le_of_lt (Nat.div_le_self _ _) a.isLt)
  · rw [BitVec.ushiftRight_eq_zero (by omega)]

theorem compareFlags_eq (a : Byte) : compareFlags a a = flEqual := if_pos rfl

theorem compareFlags_gt {a b : Byte} (h : b < a) : compareFlags a b = flGreater := by
  have h : b.toNat < a.toNat := h
  rw [compareFlags, if_neg (by omega), if_pos h]

theorem compareFlags_lt {a b : Byte} (h : a < b) : compareFlags a b = flLess := by
  have h : a.toNat < b.toNat := h
  rw [compareFlags, if_neg (by omega), if_neg (by omega)]

/-- Settles O31, operation by operation. -/
theorem aluComputesItsTable : Obligations.AluComputesItsTable := by
  intro a b
  refine ⟨alu_add a b, alu_sub a b, alu_mul a b, alu_div, fun h => ?div, alu_mod, fun h => ?mod, fun h => ?eq,
    fun h => congrArg some (compareFlags_gt h), fun h => congrArg some (compareFlags_lt h), rfl, rfl, rfl, alu_not a b,
    fun _ => alu_shl a b, fun h => ?shl, fun _ => alu_shr a b, fun h => ?shr⟩
  case div => exact (alu_none_iff _ _ _).2 ⟨.inl rfl, by simp [h]⟩
  case mod => exact (alu_none_iff _ _ _).2 ⟨.inr rfl, by simp [h]⟩
  case eq => exact h ▸ congrArg some (compareFlags_eq a)
  case shl => rw [alu_shl, BitVec.shiftLeft_eq_zero h]
  case shr => rw [alu_shr, BitVec.ushiftRight_eq_zero h]

end Sys2Proof.Machine
end

section
/-! What each instruction leaves when it completes (41_load_print_halt.md to 44_alu.md): the effect and the frame of every
commit, and the obligations about completed instructions. -/

namespace Sys2Proof.Machine

/-! ### Instructions that write one register -/

/-- The register holds the value, PC is `n` bytes further, and nothing else has changed. -/
abbrev WritesRegister (i : RegIdx) (v : Byte) (n : Nat) (s t : State) : Prop :=
  t.reg i = v ∧ SameRegsExcept [i] s t ∧ t.pc.toNat = s.pc.toNat + n ∧ t.fl = s.fl ∧ SameMemory s t ∧ SameEngine s t

theorem setReg_writesRegister {s : State} (i : RegIdx) (v : Byte) {n : Nat} (h : s.pc.toNat + n < 256) :
    WritesRegister i v n s ((s.setReg i v).setPc (s.pcPlus n)) := by
  refine ⟨?written, fun j hj => ?others, State.pcPlus_toNat h, rfl, fun _ => rfl, rfl, rfl, rfl, rfl⟩
  case written => rw [State.setPc_reg, State.setReg_reg, if_pos rfl]
  case others => rw [State.setPc_reg, State.setReg_reg, if_neg (by simpa using hj)]

theorem aluWritten_writesRegister {s : State} {a b : Byte} {i j : RegIdx} {op : AluOp} {n : Nat} {v : Byte}
    (ha : Names a i) (hb : Names b j) (hv : alu op (s.reg i) (s.reg j) = some v) (h : s.pc.toNat + n < 256) :
    WritesRegister i v n s (s.aluWritten op a b n) := by
  rw [State.aluWritten, registerNamed_eq ha, registerNamed_eq hb, aluValue, hv]
  exact setReg_writesRegister i v h

/-- An ALU instruction of two registers that has a result and is not at the top of memory completes and writes it. -/
theorem exec_alu_writesRegister {x : Instr} {s : State} {a b : Byte} {i j : RegIdx} {op : AluOp} {v : Byte}
    (hcommit : commit x s = s.aluWritten op a b 3) (ha : Names a i) (hb : Names b j)
    (hv : alu op (s.reg i) (s.reg j) = some v) (hpc : s.pc.toNat ≤ 252)
    (herr : indexError a = none → indexError b = none → pastTopError 3 s = none → firstError x s = none) :
    ∃ t, exec x s = .next t ∧ WritesRegister i v 3 s t := by
  have hpc : s.pc.toNat + 3 < 256 := by omega
  refine ⟨_, exec_of_no_error (herr (indexError_of_names ha) (indexError_of_names hb) (pastTopError_of_lt hpc)), ?_⟩
  rw [hcommit]
  exact aluWritten_writesRegister ha hb hv hpc

theorem firstError_two_registers {a b : Byte} {s : State} (ha : indexError a = none) (hb : indexError b = none)
    (hpc : pastTopError 3 s = none) : ((indexError a).or (indexError b)).or (pastTopError 3 s) = none := by
  rw [ha, hb, hpc]
  rfl

/-- Settles O15: the commit is one register write and the advance. -/
theorem ldiLoadsItsImmediate : Obligations.LdiLoadsItsImmediate := by
  intro s r imm d hr hpc
  have hpc : s.pc.toNat + 3 < 256 := by omega
  have herr : firstError (.ldi r imm) s = none := by
    simp [firstError, indexError_of_names hr, pastTopError_of_lt hpc]
  refine ⟨_, exec_of_no_error herr, ?_⟩
  rw [commit, registerNamed_eq hr]
  exact setReg_writesRegister d imm hpc

/-- Settles O32: the three share the shape of the two-register ALU instructions. -/
theorem addSubMulWrapModulo256 : Obligations.AddSubMulWrapModulo256 := by
  intro s a b i j ha hb hpc p hp
  fin_cases hp
  · exact exec_alu_writesRegister (op := .add) rfl ha hb (alu_add _ _) hpc firstError_two_registers
  · exact exec_alu_writesRegister (op := .sub) rfl ha hb (alu_sub _ _) hpc firstError_two_registers
  · exact exec_alu_writesRegister (op := .mul) rfl ha hb (alu_mul _ _) hpc firstError_two_registers

theorem firstError_divisor {a b : Byte} {s : State} (hdiv : divisorError b s = none) (ha : indexError a = none)
    (hb : indexError b = none) (hpc : pastTopError 3 s = none) :
    (((indexError a).or (indexError b)).or (divisorError b s)).or (pastTopError 3 s) = none := by
  rw [ha, hb, hdiv, hpc]
  rfl

/-- Settles O33: both write the byte operation's result, and quotient and remainder make up the dividend. -/
theorem divAndModAreUnsigned : Obligations.DivAndModAreUnsigned := by
  intro s a b i j ha hb hj hpc
  have hdiv := divisorError_of_ne hb hj
  obtain ⟨t, ht, hti, htframe⟩ := exec_alu_writesRegister (x := .div a b) (op := .div) rfl ha hb (alu_div hj) hpc
    (firstError_divisor hdiv)
  obtain ⟨u, hu, hui, huframe⟩ := exec_alu_writesRegister (x := .mod a b) (op := .mod) rfl ha hb (alu_mod hj) hpc
    (firstError_divisor hdiv)
  have hq : (t.reg i).toNat = (s.reg i).toNat / (s.reg j).toNat := by rw [hti, BitVec.toNat_udiv]
  have hr : (u.reg i).toNat = (s.reg i).toNat % (s.reg j).toNat := by rw [hui, BitVec.toNat_umod]
  obtain ⟨tregs, tpc, tfl, tmem, tengine⟩ := htframe
  refine ⟨t, u, ht, hu, hq, hr, ?_, tregs, tpc, tfl, tmem, tengine, huframe⟩
  rw [hq, hr]
  exact Nat.div_add_mod' _ _

/-- A register that holds a byte made bit by bit, read bit by bit. -/
theorem exec_writes_bitwise {x : Instr} {s : State} {i j : RegIdx} {v : Byte} {f : Bool → Bool → Bool}
    (hv : ∀ k, v.getLsbD k = f ((s.reg i).getLsbD k) ((s.reg j).getLsbD k))
    (h : ∃ t, exec x s = .next t ∧ WritesRegister i v 3 s t) :
    ∃ t, exec x s = .next t ∧ (∀ k, k < 8 → (t.reg i).getLsbD k = f ((s.reg i).getLsbD k) ((s.reg j).getLsbD k)) ∧
      SameRegsExcept [i] s t ∧ t.pc.toNat = s.pc.toNat + 3 ∧ t.fl = s.fl ∧ SameMemory s t ∧ SameEngine s t := by
  obtain ⟨t, ht, hti, hframe⟩ := h
  exact ⟨t, ht, fun k _ => hti ▸ hv k, hframe⟩

/-- Settles O35: each of the three works bit by bit, and they share the shape of the two-register ALU instructions. -/
theorem andOrXorAreBitwise : Obligations.AndOrXorAreBitwise := by
  intro s a b i j ha hb hpc p hp
  fin_cases hp
  · exact exec_writes_bitwise (fun _ => BitVec.getLsbD_and)
      (exec_alu_writesRegister (op := .and) rfl ha hb rfl hpc firstError_two_registers)
  · exact exec_writes_bitwise (fun _ => BitVec.getLsbD_or)
      (exec_alu_writesRegister (op := .or) rfl ha hb rfl hpc firstError_two_registers)
  · exact exec_writes_bitwise (fun _ => BitVec.getLsbD_xor)
      (exec_alu_writesRegister (op := .xor) rfl ha hb rfl hpc firstError_two_registers)

/-- Settles O36: the complement, read as a number and bit by bit. -/
theorem notInvertsEveryBit : Obligations.NotInvertsEveryBit := by
  intro s a i ha hpc
  have hpc : s.pc.toNat + 2 < 256 := by omega
  have herr : firstError (.not a) s = none := by
    simp [firstError, indexError_of_names ha, pastTopError_of_lt hpc]
  obtain ⟨hi, hframe⟩ := aluWritten_writesRegister ha ha (alu_not (s.reg i) (s.reg i)) hpc
  refine ⟨_, exec_of_no_error herr, ?number, fun k hk => ?bits, hframe⟩
  case number => rw [commit, hi, BitVec.toNat_not]
  case bits => rw [commit, hi, BitVec.getLsbD_not, decide_eq_true hk, Bool.true_and]

theorem shiftLeft_toNat (a : Byte) (n : Nat) : (a <<< n).toNat = if n < 8 then a.toNat * 2 ^ n % 256 else 0 := by
  split
  · rw [BitVec.toNat_shiftLeft, Nat.shiftLeft_eq]
  · rw [BitVec.shiftLeft_eq_zero (by omega)]; rfl

theorem ushiftRight_toNat (a : Byte) (n : Nat) : (a >>> n).toNat = if n < 8 then a.toNat / 2 ^ n else 0 := by
  split
  · rw [BitVec.toNat_ushiftRight, Nat.shiftRight_eq_div_pow]
  · rw [BitVec.ushiftRight_eq_zero (by omega)]; rfl

/-- Settles O37: the shift of the byte, as a number, is 0 from an amount of 8 on. -/
theorem shiftsSaturateToZero : Obligations.ShiftsSaturateToZero := by
  intro s a b i j ha hb hpc
  obtain ⟨t, ht, hti, tregs, tpc, tfl, tmem, tengine⟩ := exec_alu_writesRegister (x := .shl a b) (op := .shl) rfl ha hb
    (alu_shl _ _) hpc firstError_two_registers
  obtain ⟨u, hu, hui, huframe⟩ := exec_alu_writesRegister (x := .shr a b) (op := .shr) rfl ha hb
    (alu_shr _ _) hpc firstError_two_registers
  exact ⟨t, u, ht, hu, hti ▸ shiftLeft_toNat _ _, hui ▸ ushiftRight_toNat _ _, tregs, tpc, tfl, tmem, tengine, huframe⟩

/-! ### CMP, PRN, HLT and the jumps: no register is written -/

/-- Settles O38: the commit replaces FL by the pattern of the comparison. -/
theorem cmpReplacesTheFlags : Obligations.CmpReplacesTheFlags := by
  intro s a b i j ha hb hpc
  have hpc : s.pc.toNat + 3 < 256 := by omega
  have herr : firstError (.cmp a b) s = none :=
    firstError_two_registers (indexError_of_names ha) (indexError_of_names hb) (pastTopError_of_lt hpc)
  refine ⟨_, exec_of_no_error herr, ?_, fun _ _ => rfl, State.pcPlus_toNat hpc, fun _ => rfl, rfl, rfl, rfl, rfl⟩
  rw [commit, registerNamed_eq ha, registerNamed_eq hb]
  rfl

/-- Settles O16: the commit emits the register and advances. -/
theorem prnEmitsItsRegister : Obligations.PrnEmitsItsRegister := by
  intro s r i hr hpc
  have hpc : s.pc.toNat + 2 < 256 := by omega
  have herr : firstError (.prn r) s = none := by
    simp [firstError, indexError_of_names hr, pastTopError_of_lt hpc]
  refine ⟨_, exec_of_no_error herr, ?_, fun _ _ => rfl, State.pcPlus_toNat hpc, rfl, fun _ => rfl, rfl, rfl, rfl⟩
  rw [commit, registerNamed_eq hr]
  rfl

/-- Settles O17: HLT has no error, at any address. -/
theorem hltHalts : Obligations.HltHalts := by
  intro s
  refine ⟨_, exec_of_no_error rfl, rfl, ?_, fun _ _ => rfl, rfl, fun _ => rfl, rfl, rfl, rfl⟩
  rw [commit, State.setStatus_pc, fallThroughHalt, State.setPc_pc, BitVec.toNat_ofNat]
  exact Nat.mod_mod _ _

/-- Settles O27: past the index check JMP has no error, at any address. -/
theorem jmpSetsThePc : Obligations.JmpSetsThePc := by
  intro s r i hr
  have herr : firstError (.jmp r) s = none := indexError_of_names hr
  refine ⟨_, exec_of_no_error herr, ?_, fun _ _ => rfl, rfl, fun _ => rfl, rfl, rfl, rfl, rfl⟩
  rw [commit, registerNamed_eq hr]
  rfl

theorem exec_jeq_taken {s : State} {r : Byte} {i : RegIdx} (hr : Names r i) (h : s.fl.getLsbD 0 = true) :
    exec (.jeq r) s = .next (s.setPc (s.reg i)) := by
  have herr : firstError (.jeq r) s = none := by
    simp only [firstError, indexError_of_names hr, h]
    rfl
  rw [exec_of_no_error herr, commit, if_pos h, registerNamed_eq hr]

theorem exec_jeq_not_taken {s : State} {r : Byte} {i : RegIdx} (hr : Names r i) (h : s.fl.getLsbD 0 = false)
    (hpc : s.pc.toNat ≤ 253) : exec (.jeq r) s = .next (s.setPc (s.pcPlus 2)) := by
  have htop : pastTopError 2 s = none := pastTopError_of_lt (by omega)
  have herr : firstError (.jeq r) s = none := by simp [firstError, indexError_of_names hr, htop]
  rw [exec_of_no_error herr, commit, if_neg (Bool.eq_false_iff.1 h)]

theorem exec_jne_taken {s : State} {r : Byte} {i : RegIdx} (hr : Names r i) (h : s.fl ≠ 0x01#8) :
    exec (.jne r) s = .next (s.setPc (s.reg i)) := by
  have herr : firstError (.jne r) s = none := by simp [firstError, indexError_of_names hr, h]
  rw [exec_of_no_error herr, commit, if_pos h, registerNamed_eq hr]

theorem exec_jne_not_taken {s : State} {r : Byte} {i : RegIdx} (hr : Names r i) (h : s.fl = 0x01#8)
    (hpc : s.pc.toNat ≤ 253) : exec (.jne r) s = .next (s.setPc (s.pcPlus 2)) := by
  have htop : pastTopError 2 s = none := pastTopError_of_lt (by omega)
  have herr : firstError (.jne r) s = none := by simp [firstError, indexError_of_names hr, htop]
  rw [exec_of_no_error herr, commit, if_neg (not_not.2 h)]

/-- What every jump leaves alone. -/
theorem setPc_frame (s : State) (p : Byte) : SameRegsExcept [] s (s.setPc p) ∧ (s.setPc p).fl = s.fl ∧
    SameMemory s (s.setPc p) ∧ SameEngine s (s.setPc p) :=
  ⟨fun _ _ => rfl, rfl, fun _ => rfl, rfl, rfl, rfl, rfl⟩

theorem pcPlus_two_toNat {s : State} (h : s.pc.toNat ≤ 253) : (s.pcPlus 2).toNat = s.pc.toNat + 2 :=
  State.pcPlus_toNat (by omega)

/-- Settles O28, by the two outcomes of the test. -/
theorem jeqTestsTheEqualBit : Obligations.JeqTestsTheEqualBit := by
  intro s r i hr h
  cases hfl : s.fl.getLsbD 0 with
  | true => exact ⟨_, exec_jeq_taken hr hfl, rfl, setPc_frame s _⟩
  | false =>
    have hpc : s.pc.toNat ≤ 253 := h.resolve_left (Bool.eq_false_iff.1 hfl)
    exact ⟨_, exec_jeq_not_taken hr hfl hpc, pcPlus_two_toNat hpc, setPc_frame s _⟩

/-- Settles O29, by the two outcomes of the test. -/
theorem jneComparesTheWholeFlagRegister : Obligations.JneComparesTheWholeFlagRegister := by
  intro s r i hr h
  by_cases hfl : s.fl = 0x01#8
  · have hpc : s.pc.toNat ≤ 253 := h.resolve_left (not_not.2 hfl)
    refine ⟨_, exec_jne_not_taken hr hfl hpc, ?_, setPc_frame s _⟩
    rw [if_neg (not_not.2 hfl)]
    exact pcPlus_two_toNat hpc
  · refine ⟨_, exec_jne_taken hr hfl, ?_, setPc_frame s _⟩
    rw [if_pos hfl]
    rfl

/-- Settles O30: among the legal values, bit 0 is set in 0x01 alone. -/
theorem exactlyOneOfJeqAndJneIsTaken : Obligations.ExactlyOneOfJeqAndJneIsTaken := by
  intro s r i hlegal hr hpc
  by_cases hfl : s.fl = 0x01#8
  · exact ⟨_, _, exec_jeq_taken hr (by rw [hfl]; rfl), exec_jne_not_taken hr hfl hpc, .inl ⟨rfl, pcPlus_two_toNat hpc⟩⟩
  · have hbit : s.fl.getLsbD 0 = false := by
      rcases hlegal with h | h | h | h
      · rw [h]; rfl
      · exact absurd h hfl
      · rw [h]; rfl
      · rw [h]; rfl
    exact ⟨_, _, exec_jeq_not_taken hr hbit hpc, exec_jne_taken hr hfl, .inr ⟨pcPlus_two_toNat hpc, rfl⟩⟩

end Sys2Proof.Machine
end

section
/-! The stack (42_stack.md, 43_control_transfer.md R121, R122, R126): what PUSH and CALL store and what POP and RET load; the
two round trips follow from these rules alone. -/

namespace Sys2Proof.Machine

theorem toNat_sub_one {v : Byte} (h : 0 < v.toNat) : (v - 1#8).toNat = v.toNat - 1 := by
  have := v.isLt
  rw [BitVec.toNat_sub]
  simp
  omega

theorem toNat_add_one {v : Byte} (h : v.toNat < 255) : (v + 1#8).toNat = v.toNat + 1 := by
  rw [BitVec.toNat_add]
  exact Nat.mod_eq_of_lt (by simpa using by omega)

/-! ### PUSH and CALL -/

/-- The stack pointer is one lower, the byte stands in the cell it then addresses, and no other register or cell changes. -/
abbrev Pushes (v : Byte) (s t : State) : Prop :=
  (t.reg 7).toNat + 1 = (s.reg 7).toNat ∧ SameRegsExcept [7] s t ∧ t.mem.read ((s.reg 7).toNat - 1) = some v ∧
    SameMemoryExcept ((s.reg 7).toNat - 1) s t

theorem pushed_pushes {s : State} (v p : Byte) (h : 0 < (s.reg 7).toNat) : Pushes v s ((s.pushed v).setPc p) := by
  have hsp := toNat_sub_one h
  have hread : ∀ a, ((s.pushed v).setPc p).mem.read a = if a = (s.reg 7).toNat - 1 then some v else s.mem.read a :=
    fun a => (Memory.read_set _ _ _ _ (s.reg 7 - 1#8).isLt).trans (by rw [hsp])
  have hreg : ∀ j, ((s.pushed v).setPc p).reg j = if j = 7 then s.reg 7 - 1#8 else s.reg j :=
    fun j => State.setReg_reg s 7 j _
  refine ⟨?_, fun j hj => ?_, ?_, fun a ha => ?_⟩
  · rw [hreg, if_pos rfl, hsp]
    omega
  · rw [hreg, if_neg (by simpa using hj)]
  · rw [hread, if_pos rfl]
  · rw [hread, if_neg ha]

/-- Settles O18: the register is read after the decrement, and stored. -/
theorem pushStoresBelowTheStackPointer : Obligations.PushStoresBelowTheStackPointer := by
  intro s r i hr hfloor hpc
  have hpc : s.pc.toNat + 2 < 256 := by omega
  have herr : firstError (.push r) s = none := by
    simp [firstError, indexError_of_names hr, overflowError_of_lt hfloor, pastTopError_of_lt hpc]
  refine ⟨_, exec_of_no_error herr, ?_⟩
  rw [commit, registerNamed_eq hr, State.setReg_reg]
  obtain ⟨hsp, hregs, hcell, hmem⟩ := pushed_pushes (if i = 7 then s.reg 7 - 1#8 else s.reg i) (s.pcPlus 2)
    (Nat.zero_lt_of_lt hfloor)
  exact ⟨hsp, hregs, hcell, hmem, State.pcPlus_toNat hpc, rfl, rfl, rfl, rfl, rfl⟩

/-- Settles O23: the return address is stored, and the target read after the decrement. -/
theorem callPushesTheReturnAddress : Obligations.CallPushesTheReturnAddress := by
  intro s r i hr hfloor hpc
  have hpc : s.pc.toNat + 2 < 256 := by omega
  have herr : firstError (.call r) s = none := by
    simp [firstError, indexError_of_names hr, overflowError_of_lt hfloor, pastTopError_of_lt hpc]
  refine ⟨_, exec_of_no_error herr, ?_⟩
  rw [commit, registerNamed_eq hr, State.setReg_reg]
  obtain ⟨hsp, hregs, hcell, hmem⟩ := pushed_pushes (s.pcPlus 2) (if i = 7 then s.reg 7 - 1#8 else s.reg i)
    (Nat.zero_lt_of_lt hfloor)
  exact ⟨rfl, hsp, hregs, hcell, hmem, rfl, rfl, rfl, rfl, rfl⟩

/-! ### POP and RET -/

/-- Settles O19: the register written is not the pointer, so R7 itself is incremented. -/
theorem popLoadsAndIncrements : Obligations.PopLoadsAndIncrements := by
  intro s r d hr hd hsp hpc
  have hpc : s.pc.toNat + 2 < 256 := by omega
  have herr : firstError (.pop r) s = none := by
    simp [firstError, indexError_of_names hr, popPointer_of_ne hr hd, underflowError_of_lt hsp, pastTopError_of_lt hpc]
  refine ⟨_, exec_of_no_error herr, ?_⟩
  rw [commit, registerNamed_eq hr, popPointer_of_ne hr hd]
  refine ⟨?loaded, ?pointer, fun j hj => ?others, State.pcPlus_toNat hpc, rfl, fun _ => rfl, rfl, rfl, rfl, rfl⟩
  case loaded => simp [hd, Memory.read_of_lt (s.reg 7).isLt]
  case pointer => simp [toNat_add_one hsp]
  case others =>
    obtain ⟨hjd, hj7⟩ : j ≠ d ∧ j ≠ 7 := by simpa using hj
    simp [hjd, hj7]

/-- Settles O20: the pointer that is incremented is the byte loaded. -/
theorem popOfTheStackPointerLoadsThenIncrements : Obligations.PopOfTheStackPointerLoadsThenIncrements := by
  intro s v hv
  obtain rfl : s.mem.get (s.reg 7).toNat = v := by
    rw [Memory.read_of_lt (s.reg 7).isLt] at hv
    exact Option.some.inj hv
  have hptr : popPointer 7#8 s = s.mem.get (s.reg 7).toNat := if_pos rfl
  have hseven : Names 7#8 7 := rfl
  refine ⟨fun hlt hpc => ?below, fun h255 => exec_raises rfl ?top⟩
  case below =>
    have hpc : s.pc.toNat + 2 < 256 := by omega
    have herr : firstError (.pop 7#8) s = none := by
      simp [firstError, indexError_of_names hseven, hptr, underflowError_of_lt hlt, pastTopError_of_lt hpc]
    refine ⟨_, exec_of_no_error herr, ?_⟩
    rw [commit, hptr, registerNamed_eq hseven]
    refine ⟨toNat_add_one hlt, fun j hj => ?_, State.pcPlus_toNat hpc, rfl, fun _ => rfl, rfl, rfl, rfl, rfl⟩
    have hj : j ≠ 7 := by simpa using hj
    simp [hj]
  case top =>
    simp [firstError, indexError_of_names hseven, hptr, underflowError_of_eq (congrArg BitVec.toNat h255)]

/-- Settles O25: RET's one check is the stack pointer's. -/
theorem retPopsThePc : Obligations.RetPopsThePc := by
  intro s hsp
  refine ⟨_, exec_of_no_error (underflowError_of_lt hsp), (Memory.read_of_lt (s.reg 7).isLt).symm, toNat_add_one hsp,
    fun j hj => ?_, rfl, fun _ => rfl, rfl, rfl, rfl, rfl⟩
  exact (State.setReg_reg s 7 j _).trans (if_neg (by simpa using hj))

/-! ### The round trips -/

/-- Settles O22, from the rules of PUSH and of POP: the cell pushed to is the one popped from. -/
theorem pushThenPopRoundTrips : Obligations.PushThenPopRoundTrips := by
  intro s ra rb a b ha hb ha7 hb7 hfloor hpc
  obtain ⟨t, ht, tsp, tregs, tcell, tmem, tpc, -⟩ := pushStoresBelowTheStackPointer s ra a ha hfloor (by omega)
  have := (s.reg 7).isLt
  obtain ⟨u, hu, ucell, usp, uregs, -, -, umem, -⟩ := popLoadsAndIncrements t rb b hb hb7 (by omega) (by omega)
  rw [if_neg ha7] at tcell
  have hsp : u.reg 7 = s.reg 7 := BitVec.eq_of_toNat_eq (by omega)
  rw [show (t.reg 7).toNat = (s.reg 7).toNat - 1 by omega, tcell] at ucell
  refine ⟨t, u, ht, hu, Option.some.inj ucell, hsp, fun j hj => ?_, (umem _).trans tcell,
    fun c hc => (umem c).trans (tmem c hc)⟩
  by_cases hj7 : j = 7
  · rw [hj7, hsp]
  · exact (uregs j (by simpa [hj7] using hj)).trans (tregs j (by simpa using hj7))

/-- Settles O26, from the rules of CALL and of RET: RET reads the cell CALL stored its return address in. -/
theorem callThenRetReturns : Obligations.CallThenRetReturns := by
  intro s r i hr hfloor hpc
  obtain ⟨t, ht, -, tsp, -, tcell, -⟩ := callPushesTheReturnAddress s r i hr hfloor hpc
  refine ⟨t, ht, fun u husp hucell => ?_⟩
  have := (s.reg 7).isLt
  rw [← husp] at tsp
  obtain ⟨v, hv, vpc, vsp, -⟩ := retPopsThePc u (by omega)
  rw [show (u.reg 7).toNat = (s.reg 7).toNat - 1 by omega, hucell, tcell] at vpc
  refine ⟨v, hv, ?_, BitVec.eq_of_toNat_eq (by omega)⟩
  rw [Option.some.inj vpc]
  exact pcPlus_two_toNat hpc

end Sys2Proof.Machine
end

section
/-! The fetch and the step (40_engine_cycle.md R80 to R84, R95): which bytes are fetched, that they stand in memory, and what
each failure of the fetch raises; then everything a step can be, with the bytes of its report. -/

namespace Sys2Proof.Machine

/-! ### Bytes placed in memory -/

theorem Memory.place_cons {m : Memory} {a : Nat} {b : Byte} {bs : List Byte} (h : a < 256) :
    m.place a (b :: bs) = (m.set a b).place (a + 1) bs := by
  rw [Memory.place, Memory.write_of_lt h, Option.getD_some]

theorem Memory.read_place_outside {m : Memory} {a c : Nat} {bs : List Byte} (h : a + bs.length ≤ 256)
    (hc : c < a ∨ a + bs.length ≤ c) : (m.place a bs).read c = m.read c := by
  induction bs generalizing m a with
  | nil => rfl
  | cons b bs ih =>
    rw [List.length_cons] at h hc
    rw [Memory.place_cons (by omega), ih (by omega) (by omega), Memory.read_set _ _ _ _ (by omega), if_neg (by omega)]

theorem Memory.read_place_inside {m : Memory} {a k : Nat} {bs : List Byte} (h : a + bs.length ≤ 256)
    (hk : k < bs.length) : (m.place a bs).read (a + k) = some bs[k] := by
  induction bs generalizing m a k with
  | nil => cases hk
  | cons b bs ih =>
    rw [List.length_cons] at h
    rw [Memory.place_cons (by omega)]
    cases k with
    | zero =>
      rw [Memory.read_place_outside (by omega) (by omega), Memory.read_set _ _ _ _ (by omega)]
      exact if_pos rfl
    | succ k =>
      rw [show a + (k + 1) = a + 1 + k by omega]
      exact ih (by omega) (Nat.lt_of_succ_lt_succ hk)

/-! ### What is fetched -/

theorem readUpTo_getElem? {m : Memory} {a n k : Nat} {b : Byte} (h : (m.readUpTo a n)[k]? = some b) :
    m.read (a + k) = some b := by
  induction n generalizing a k with
  | zero => cases h
  | succ n ih =>
    unfold Memory.readUpTo at h
    split at h
    · cases h
    · next v hv =>
      cases k with
      | zero => exact hv.trans h
      | succ k =>
        rw [Nat.add_comm k 1, ← Nat.add_assoc]
        exact ih h

/-- Every byte fetched stands in memory, from PC on. -/
theorem fetchBytes_getElem? {s : State} {k : Nat} {b : Byte} (h : (fetchBytes s)[k]? = some b) :
    s.mem.read (s.pc.toNat + k) = some b := readUpTo_getElem? h

theorem get_of_read {m : Memory} {a : Nat} {v : Byte} (ha : a < 256) (h : m.read a = some v) : m.get a = v :=
  Option.some.inj ((Memory.read_of_lt ha).symm.trans h)

/-- The opcode byte is fetched first, and after it what there is of as many bytes as it asks for. -/
theorem fetchBytes_eq_cons {s : State} {op : Byte} {n : Nat} (h : s.mem.read s.pc.toNat = some op)
    (hn : fetchLength op = n + 1) : fetchBytes s = op :: s.mem.readUpTo (s.pc.toNat + 1) n := by
  rw [fetchBytes, get_of_read s.pc.isLt h, hn, readUpTo_succ s.pc.isLt, get_of_read s.pc.isLt h]

theorem fetchBytes_of_encode {s : State} {i : Instr}
    (h : ∀ k, (hk : k < (encode i).length) → s.mem.read (s.pc.toNat + k) = some (encode i)[k]) :
    fetchBytes s = encode i := by
  obtain ⟨op, operands, hbytes, -, -, -, hlength⟩ := encodeShape i
  have hop : s.mem.read s.pc.toNat = some op := by
    have := h 0 (by simp [hbytes])
    simpa only [Nat.add_zero, hbytes, List.getElem_cons_zero] using this
  rw [fetchBytes, get_of_read s.pc.isLt hop, hlength]
  exact readUpTo_eq h

theorem fetch_ok_inv {s : State} {i : Instr} (h : fetch s = .ok i) : ∃ rest, fetchBytes s = encode i ++ rest := by
  unfold fetch at h
  split at h
  · next j rest hdecode =>
    cases h
    exact ⟨rest, decodedBytesAreTheEncoding _ _ _ hdecode⟩
  · cases h

/-- The bytes of a fetched instruction stand in memory, from PC on. -/
theorem read_of_fetch {s : State} {i : Instr} {k : Nat} {b : Byte} (h : fetch s = .ok i)
    (hk : (encode i)[k]? = some b) : s.mem.read (s.pc.toNat + k) = some b := by
  obtain ⟨rest, hrest⟩ := fetch_ok_inv h
  refine fetchBytes_getElem? ?_
  rw [hrest, List.getElem?_append_left (List.getElem?_eq_some_iff.1 hk).1]
  exact hk

/-- Settles O6: what is fetched is `encode i`, and it decodes to `i`. -/
theorem stepRunsTheInstructionAtPc : Obligations.StepRunsTheInstructionAtPc := by
  intro s i hs h
  have hdecode : decode (fetchBytes s) = .ok (i, []) := by
    rw [fetchBytes_of_encode h, ← List.append_nil (encode i)]
    exact decodeOfEncodeGivesTheInstruction i []
  exact step_of_fetch hs (fetch_of_decode hdecode)

/-- Settles O7: the word's bytes begin with the encoding of what they decode to, so that encoding stands at PC. -/
theorem placedWordRunsAsItDecodes : Obligations.PlacedWordRunsAsItDecodes := by
  intro s i nbits w hpc h
  obtain ⟨rest, hword⟩ : ∃ rest, tableWordBytes nbits w = encode i ++ rest := by
    unfold decodeTableWord at h
    split at h
    · next j rest hdecode =>
      cases h
      exact ⟨rest, decodedBytesAreTheEncoding _ _ _ hdecode⟩
    · cases h
  have hlength : (encode i ++ rest).length = 3 := congrArg List.length hword.symm
  refine stepRunsTheInstructionAtPc _ i rfl fun k hk => ?_
  have hk' : k < (encode i ++ rest).length := by
    rw [List.length_append]
    omega
  rw [← List.getElem_append_left (bs := rest) (h' := hk') hk, State.withFetchWord, hword]
  exact Memory.read_place_inside (by omega) hk'

/-! ### The step -/

/-- Settles O8: of the three statuses only `running` fetches. -/
theorem terminalStatusDoesNothing : Obligations.TerminalStatusDoesNothing := fun _ h => step_of_terminal h

theorem exec_total (i : Instr) (s : State) : ∃ t, exec i s = .next t := by
  cases h : firstError i s with
  | some e => exact ⟨_, exec_of_firstError h⟩
  | none => exact ⟨_, exec_of_no_error h⟩

/-- Settles O9: no status and no result of the fetch leaves the step without a next state. -/
theorem everyStepGivesANextState : Obligations.EveryStepGivesANextState := by
  intro s
  by_cases hs : s.status = .running
  · cases hf : fetch s with
    | ok i => exact step_of_fetch hs hf ▸ exec_total i s
    | error e => exact ⟨_, step_of_fetch_error hs hf⟩
  · exact ⟨s, step_of_terminal hs⟩

/-- A step of a running engine raises, with bytes it fetched in the report, or commits the instruction at PC. -/
theorem step_running_cases {s t : State} (hs : s.status = .running) (h : step s = .next t) :
    (∃ e op operands, (op :: operands) <+: fetchBytes s ∧ t = raise e (op :: operands) s) ∨
    (∃ i, fetch s = .ok i ∧ firstError i s = none ∧ t = commit i s) := by
  rcases step_cases h with ⟨hterminal, -⟩ | ⟨-, i, hf, hexec⟩ | ⟨-, e, -, rfl⟩
  · exact absurd hs hterminal
  · cases he : firstError i s with
    | some e =>
      obtain ⟨rest, hrest⟩ := fetch_ok_inv hf
      obtain ⟨op, operands, hbytes, -⟩ := encodeShape i
      rw [exec_of_firstError he] at hexec
      cases hexec
      exact .inl ⟨e, op, operands, ⟨rest, by rw [hrest, hbytes]⟩, by rw [hbytes]⟩
    | none =>
      rw [exec_of_no_error he] at hexec
      cases hexec
      exact .inr ⟨i, hf, he, rfl⟩
  · obtain ⟨operands, hbytes⟩ := fetchBytes_head s
    exact .inl ⟨e, _, operands, by rw [hbytes], by rw [hbytes]⟩

/-- Settles O13: the step raised, and the bytes in the report are bytes it fetched. -/
theorem aFailingInstructionCommitsNothing : Obligations.AFailingInstructionCommitsNothing := by
  intro s t hs h hfatal
  rcases step_running_cases hs h with ⟨e, op, operands, ⟨rest, hrest⟩, rfl⟩ | ⟨i, -, -, rfl⟩
  · have inMemory : ∀ {k : Nat} {b : Byte}, (op :: operands)[k]? = some b → s.mem.read (s.pc.toNat + k) = some b := by
      intro k b hk
      refine fetchBytes_getElem? ?_
      rw [← hrest, List.getElem?_append_left (List.getElem?_eq_some_iff.1 hk).1]
      exact hk
    exact ⟨raise_commitsNothing _ _ s, step_raise _ _ s, _, rfl, rfl, inMemory (k := 0) rfl, fun _ ha => inMemory ha,
      fun _ hb => inMemory hb⟩
  · exact absurd hfatal (commit_status_ne_fatal i hs)

/-! ### Failures of the fetch -/

theorem step_of_decode_error {s : State} {op : Byte} {operands : List Byte} {e : DecodeError}
    (hs : s.status = .running) (hbytes : fetchBytes s = op :: operands) (h : decode (op :: operands) = .error e) :
    step s = .next (raise (fetchTrap s.pc e) (op :: operands) s) := by
  rw [← hbytes] at h ⊢
  exact step_of_fetch_error hs (by rw [fetch, h])

/-- At an unknown opcode only that byte is fetched, and the step raises `UnknownInstruction` with it. -/
theorem step_of_unknown {s : State} {op : Byte} (hs : s.status = .running) (hop : s.mem.read s.pc.toNat = some op)
    (h : op.toNat ∉ opcodeBytes) :
    step s = .next (raise ⟨.unknownInstruction, some op.toNat⟩ [op] s) := by
  have hnone := (lookupOpcode_eq_none_iff op).2 h
  have hlength : fetchLength op = 0 + 1 := by rw [fetchLength, hnone]
  exact step_of_decode_error hs (fetchBytes_eq_cons hop hlength) (decode_of_lookupOpcode_none hnone [])

/-- The 22 opcode bytes are different bytes, so 256 - 22 remain. -/
theorem length_unknown_opcodes : ((List.range 256).filter (fun b => decide (b ∉ opcodeBytes))).length = 234 := by
  have hset : ((List.range 256).filter (fun b => decide (b ∉ opcodeBytes))).toFinset =
      Finset.range 256 \ opcodeBytes.toFinset := by
    ext b
    simp
  have hsub : opcodeBytes.toFinset ⊆ Finset.range 256 := by decide
  rw [← List.toFinset_card_of_nodup (List.nodup_range.filter _), hset, Finset.card_sdiff_of_subset hsub,
    Finset.card_range, List.toFinset_card_of_nodup (by decide)]
  rfl

/-- Settles O10: the count of the other bytes, and the is the raise at an unknown opcode. -/
theorem unknownOpcodeIsFatalNotSkipped : Obligations.UnknownOpcodeIsFatalNotSkipped :=
  ⟨length_unknown_opcodes, fun s _ hs hop h => ⟨_, _, step_of_unknown hs hop h, ⟨rfl, rfl⟩, rfl, step_raise _ _ s⟩⟩

/-- Settles O11: what the raise at an unknown opcode leaves. -/
theorem unknownOpcodeReport : Obligations.UnknownOpcodeReport :=
  fun s op hs hop h => ⟨_, step_of_unknown hs hop h, raise_commitsNothing _ _ s, raise_fatalWith _ op [] s⟩

theorem decode_missingOperandA {op : Byte} {row : Shape} (h : lookupOpcode op = some row) (hn : 1 ≤ operandCount row) :
    decode [op] = .error .missingOperandA := by
  cases row with
  | zero i => cases hn
  | one mk => simp [decode, h]
  | two mk => simp [decode, h]

theorem decode_missingOperandB {op a : Byte} {row : Shape} (h : lookupOpcode op = some row) (hn : operandCount row = 2) :
    decode [op, a] = .error .missingOperandB := by
  cases row with
  | zero i => cases hn
  | one mk => cases hn
  | two mk => simp [decode, h]

/-- Settles O12: reading past 255 gives no byte, so the operand asked for is missing. -/
theorem operandFetchPastTheTopIsOutOfBounds : Obligations.OperandFetchPastTheTopIsOutOfBounds := by
  intro s op hs hop hknown
  obtain ⟨row, hrow⟩ := Option.isSome_iff_exists.1 ((lookupOpcode_isSome_iff op).2 hknown)
  have hcount := lookupOpcode_countField hrow
  have hlength : fetchLength op = countField op + 1 := by rw [fetchLength, hrow]
  have hfetch := fetchBytes_eq_cons hop hlength
  rw [← countField_eq_extractLsb']
  refine ⟨fun ⟨hpc, hn⟩ => ?_, fun ⟨hpc, hn⟩ a ha => ?_⟩
  · rw [hpc, readUpTo_out (by decide)] at hfetch
    have hstep := step_of_decode_error hs hfetch (decode_missingOperandA hrow (hcount ▸ hn))
    rw [hpc] at hstep
    exact ⟨_, hstep, raise_commitsNothing _ _ s, raise_fatalWith _ op [] s⟩
  · have hget : s.mem.get ((254#8).toNat + 1) = a := get_of_read (by decide) ha
    rw [hpc, hn, readUpTo_succ (by decide), readUpTo_out (by decide), hget] at hfetch
    have hstep := step_of_decode_error hs hfetch (decode_missingOperandB hrow (hcount ▸ hn))
    rw [hpc] at hstep
    exact ⟨_, hstep, raise_commitsNothing _ _ s, raise_fatalWith _ op [a] s⟩

end Sys2Proof.Machine
end

section
/-! Rules of the whole machine (10_state.md R17, R22, R23, R25, R27; 20_memory.md R49): what a commit can change of each field,
and from it what any step can. -/

namespace Sys2Proof.Machine

/-! ### What a commit changes -/

theorem commit_fl_cases (i : Instr) (s : State) : (commit i s).fl = s.fl ∨
    ∃ a b, i = .cmp a b ∧ (commit i s).fl = compareFlags (s.reg (registerNamed a)) (s.reg (registerNamed b)) := by
  cases i
  case cmp a b => exact .inr ⟨a, b, rfl, rfl⟩
  all_goals exact .inl rfl

theorem commit_mem_cases (i : Instr) (s : State) : (commit i s).mem = s.mem ∨
    ∃ r v, (i = .push r ∨ i = .call r) ∧ (commit i s).mem = s.mem.set (s.reg 7 - 1#8).toNat v := by
  cases i
  case push r => exact .inr ⟨r, _, .inl rfl, rfl⟩
  case call r => exact .inr ⟨r, _, .inr rfl, rfl⟩
  all_goals exact .inl rfl

theorem commit_out_cases (i : Instr) (s : State) : (commit i s).out = s.out ∨
    ∃ r, i = .prn r ∧ (commit i s).out = s.out ++ [s.reg (registerNamed r)] := by
  cases i
  case prn r => exact .inr ⟨r, rfl, rfl⟩
  all_goals exact .inl rfl

theorem eq_of_setReg_reg_ne {s : State} {i k : RegIdx} {v : Byte} (h : (s.setReg i v).reg k ≠ s.reg k) : k = i := by
  by_contra hne
  exact h ((State.setReg_reg s i k v).trans (if_neg hne))

/-- The opcode bytes of PUSH, POP, CALL and RET, which move the stack pointer (R17). -/
def stackOpcodes : List Byte := [0x45#8, 0x46#8, 0x50#8, 0x11#8]

/-- The opcode bytes of LDI, POP and the ALU instructions but CMP, which write the register operand A names (R17). -/
def destinationOpcodes : List Byte :=
  [0x82#8, 0x46#8, 0xA0#8, 0xA1#8, 0xA2#8, 0xA3#8, 0xA4#8, 0xA8#8, 0xAA#8, 0xAB#8, 0x69#8, 0xAC#8, 0xAD#8]

/-- The register is one the instruction may write: the stack pointer, or the register its first operand names. -/
def MayWrite (i : Instr) (k : RegIdx) : Prop :=
  ∃ op, (encode i)[0]? = some op ∧ ((k = 7 ∧ op ∈ stackOpcodes) ∨
    ∃ r, (registerBytes i)[0]? = some r ∧ registerNamed r = k ∧ op ∈ destinationOpcodes)

theorem commit_reg_mayWrite {i : Instr} {s : State} {k : RegIdx} (h : (commit i s).reg k ≠ s.reg k) : MayWrite i k := by
  cases i
  case prn | hlt | jmp | jeq | jne | cmp => exact absurd rfl h
  case push | call | ret => exact ⟨_, rfl, .inl ⟨eq_of_setReg_reg_ne h, by decide⟩⟩
  case pop r =>
    refine ⟨_, rfl, ?_⟩
    by_cases hk : k = 7
    · exact .inl ⟨hk, by decide⟩
    · have hload : (commit (.pop r) s).reg k = (s.setReg (registerNamed r) (s.mem.get (s.reg 7).toNat)).reg k :=
        (State.setReg_reg _ 7 k _).trans (if_neg hk)
      rw [hload] at h
      exact .inr ⟨r, rfl, (eq_of_setReg_reg_ne h).symm, by decide⟩
  all_goals exact ⟨_, rfl, .inr ⟨_, rfl, (eq_of_setReg_reg_ne h).symm, by decide⟩⟩

/-! ### What a step changes -/

/-- A field that a raise leaves alone changes only by the commit of the instruction at PC. -/
theorem step_changes {α : Type} (field : State → α) (hraise : ∀ e bs s, field (raise e bs s) = field s) {s t : State}
    (h : step s = .next t) (hne : field t ≠ field s) : ∃ i, fetch s = .ok i ∧ firstError i s = none ∧ t = commit i s := by
  by_cases hs : s.status = .running
  · rcases step_running_cases hs h with ⟨e, op, operands, -, rfl⟩ | hcommit
    · exact absurd (hraise e _ s) hne
    · exact hcommit
  · rw [step_of_terminal hs] at h
    cases h
    exact absurd rfl hne

/-- Settles O44: of all commits only CMP's changes FL. -/
theorem onlyCmpChangesTheFlags : Obligations.OnlyCmpChangesTheFlags := by
  intro s t h hne
  obtain ⟨i, hf, -, rfl⟩ := step_changes State.fl raise_fl h hne
  obtain ⟨a, b, rfl, hfl⟩ := (commit_fl_cases i s).resolve_left hne
  exact ⟨read_of_fetch (k := 0) hf rfl, hfl ▸ compareFlags_cases _ _⟩

/-- No instruction that decrements the stack pointer completes with a stack pointer of 0. -/
theorem sp_pos_of_no_error {i : Instr} {s : State} {r : Byte} (hi : i = .push r ∨ i = .call r)
    (h : firstError i s = none) : 0 < (s.reg 7).toNat := by
  have hstack : overflowError s = none := by
    rcases hi with rfl | rfl <;> exact (Option.or_eq_none_iff.1 (Option.or_eq_none_iff.1 h).1).2
  exact Nat.zero_lt_of_lt (floor_lt_of_no_overflow hstack)

/-- Settles O45: of all commits only PUSH's and CALL's change memory, each the cell of the decremented pointer. -/
theorem onlyPushAndCallChangeMemory : Obligations.OnlyPushAndCallChangeMemory := by
  intro s t a h hne
  obtain ⟨i, hf, herr, rfl⟩ := step_changes (fun s => s.mem.read a) (fun _ _ _ => rfl) h hne
  obtain ⟨r, v, hi, hmem⟩ := (commit_mem_cases i s).resolve_left (fun hmem => hne (congrArg (Memory.read · a) hmem))
  refine ⟨?_, ?_⟩
  · rcases hi with rfl | rfl
    · exact .inl (read_of_fetch (k := 0) hf rfl)
    · exact .inr (read_of_fetch (k := 0) hf rfl)
  · have hpos := sp_pos_of_no_error hi herr
    rw [hmem, Memory.read_set _ _ _ _ (s.reg 7 - 1#8).isLt, toNat_sub_one hpos] at hne
    have : a = (s.reg 7).toNat - 1 := by
      by_contra hne'
      exact hne (if_neg hne')
    omega

/-- In an instruction without an error, every register byte names the register it is taken for. -/
theorem eq_ofNat_registerNamed {i : Instr} {s : State} {r : Byte} (h : firstError i s = none) (hr : r ∈ registerBytes i) :
    r = BitVec.ofNat 8 (registerNamed r).val := by
  obtain ⟨later, hfirst, -⟩ := firstError_indexCheckedFirst i s
  rw [hfirst, Option.or_eq_none_iff, List.findSome?_eq_none_iff] at h
  rw [registerNamed_val (indexError_eq_none_iff.1 (h.1 r hr)), BitVec.ofNat_toNat, BitVec.setWidth_eq]

theorem encode_operandA {i : Instr} {r : Byte} (h : (registerBytes i)[0]? = some r) : (encode i)[1]? = some r := by
  obtain ⟨rest, hrest⟩ := registerBytes_prefix i
  rw [← List.getElem?_tail, ← hrest, List.getElem?_append_left (List.getElem?_eq_some_iff.1 h).1]
  exact h

/-- Operand A of a fetched instruction without an error stands after PC and is the number of its register. -/
theorem read_operandA {i : Instr} {s : State} {r : Byte} (hf : fetch s = .ok i) (herr : firstError i s = none)
    (hr : (registerBytes i)[0]? = some r) :
    s.mem.read (s.pc.toNat + 1) = some (BitVec.ofNat 8 (registerNamed r).val) := by
  rw [← eq_ofNat_registerNamed herr (List.mem_of_getElem? hr)]
  exact read_of_fetch hf (encode_operandA hr)

/-- Settles O46: a commit writes no register but those of `MayWrite`. -/
theorem registersChangeAsTheTableSays : Obligations.RegistersChangeAsTheTableSays := by
  intro s t k h hne
  obtain ⟨i, hf, herr, rfl⟩ := step_changes (fun s => s.reg k) (fun _ _ _ => rfl) h hne
  obtain ⟨op, hop, ⟨hk, hstack⟩ | ⟨r, hr, rfl, hdest⟩⟩ := commit_reg_mayWrite hne
  · exact ⟨op, read_of_fetch (k := 0) hf hop, .inl ⟨hk, hstack⟩⟩
  · exact ⟨op, read_of_fetch (k := 0) hf hop, .inr ⟨read_operandA hf herr hr, hdest⟩⟩

/-- Settles O47: of all commits only PRN's emits. -/
theorem outGrowsByOneByteAtPrnOnly : Obligations.OutGrowsByOneByteAtPrnOnly := by
  intro s t h hne
  obtain ⟨i, hf, herr, rfl⟩ := step_changes State.out raise_out h hne
  obtain ⟨r, rfl, hout⟩ := (commit_out_cases i s).resolve_left hne
  exact ⟨read_of_fetch (k := 0) hf rfl, _, read_operandA hf herr rfl, hout⟩

/-- Settles O50: a raise keeps the parameter, and so does every commit. -/
theorem noStepChangesTheStackFloor : Obligations.NoStepChangesTheStackFloor := by
  intro s t h
  by_contra hne
  obtain ⟨i, -, -, rfl⟩ := step_changes State.config raise_config h hne
  exact hne (commit_config i s)

/-- Settles O48: HLT's byte at PC is HLT's whole encoding, and no other commit and no raise gives `Halted`. -/
theorem haltedIsReachedOnlyByHlt : Obligations.HaltedIsReachedOnlyByHlt := by
  intro s t hs h
  constructor
  · intro ht
    rcases step_running_cases hs h with ⟨e, op, operands, -, rfl⟩ | ⟨i, hf, -, rfl⟩
    · cases ht
    · by_cases hi : i = .hlt
      · subst hi
        exact read_of_fetch (k := 0) hf rfl
      · rw [commit_status hi, hs] at ht
        cases ht
  · intro hop
    have hbytes : ∀ k, (hk : k < (encode .hlt).length) → s.mem.read (s.pc.toNat + k) = some (encode .hlt)[k] := by
      intro k hk
      obtain rfl : k = 0 := Nat.lt_one_iff.1 hk
      exact hop
    rw [stepRunsTheInstructionAtPc s .hlt hs hbytes, exec_of_no_error rfl] at h
    cases h
    rfl

/-! ### The invariant -/

/-- Settles O42: no cell is listed at reset, FL is 0, and the engine runs without a report. -/
theorem invariantHoldsAtReset : Obligations.InvariantHoldsAtReset :=
  ⟨Memory.wf_reset, .inl rfl, by decide⟩

theorem commit_keeps_mem_wf {s : State} (i : Instr) (h : s.mem.wf = true) : (commit i s).mem.wf = true := by
  rcases commit_mem_cases i s with hmem | ⟨_, v, -, hmem⟩
  · rw [hmem]
    exact h
  · rw [hmem]
    exact Memory.wf_set h (s.reg 7 - 1#8).isLt

theorem commit_keeps_flLegal {s : State} (i : Instr) (h : s.flLegal) : (commit i s).flLegal := by
  rcases commit_fl_cases i s with hfl | ⟨_, _, -, hfl⟩
  · rw [State.flLegal, hfl]
    exact h
  · rw [State.flLegal, hfl]
    exact .inr (compareFlags_cases _ _)

theorem commit_keeps_reportMatches {s : State} (i : Instr) (hs : s.status = .running) (h : s.reportMatches) :
    (commit i s).reportMatches := by
  have hreport : ¬ s.report.isSome = true := fun hsome => by
    cases hs.symm.trans (h.2 hsome)
  rw [State.reportMatches, commit_report]
  exact iff_of_false (commit_status_ne_fatal i hs) hreport

/-- Settles O43: a terminal engine stays as it is, a raise changes status and report together, and a commit keeps each of the
three conditions. -/
theorem everyStepKeepsTheInvariant : Obligations.EveryStepKeepsTheInvariant := by
  rintro s t ⟨hmem, hfl, hreport⟩ h
  by_cases hs : s.status = .running
  · rcases step_running_cases hs h with ⟨e, op, operands, -, rfl⟩ | ⟨i, -, -, rfl⟩
    · exact ⟨hmem, hfl, iff_of_true rfl rfl⟩
    · exact ⟨commit_keeps_mem_wf i hmem, commit_keeps_flLegal i hfl, commit_keeps_reportMatches i hs hreport⟩
  · rw [step_of_terminal hs] at h
    cases h
    exact ⟨hmem, hfl, hreport⟩

/-! ### OUT is only written -/

/-- The same state with more output before its own. -/
def State.outBefore (before : List Byte) (s : State) : State := { s with out := before ++ s.out }

theorem commit_outBefore (i : Instr) (before : List Byte) (s : State) :
    commit i (s.outBefore before) = (commit i s).outBefore before := by
  cases i
  case prn r => simp [commit, State.outBefore, State.emit, State.setPc, State.pcPlus, State.reg]
  all_goals rfl

/-- The errors of an instruction do not depend on OUT. -/
theorem firstError_outBefore (i : Instr) (before : List Byte) (s : State) :
    firstError i (s.outBefore before) = firstError i s := by
  cases i <;> rfl

theorem exec_outBefore {i : Instr} {s t : State} (before : List Byte) (h : exec i s = .next t) :
    exec i (s.outBefore before) = .next (t.outBefore before) := by
  have herr := firstError_outBefore i before s
  cases he : firstError i s with
  | some e =>
    rw [exec_of_firstError he] at h
    cases h
    exact exec_of_firstError (herr.trans he)
  | none =>
    rw [exec_of_no_error he] at h
    cases h
    rw [exec_of_no_error (herr.trans he), commit_outBefore]

/-- Settles O49: fetch and errors are the same with more output, and commit and raise carry it along. -/
theorem outputHasNoInfluence : Obligations.OutputHasNoInfluence := by
  intro s t before h
  show step (s.outBefore before) = .next (t.outBefore before)
  rcases step_cases h with ⟨hs, rfl⟩ | ⟨hs, i, hf, hexec⟩ | ⟨hs, e, hf, rfl⟩
  · exact step_of_terminal hs
  · exact (step_of_fetch (s := s.outBefore before) hs hf).trans (exec_outBefore before hexec)
  · exact step_of_fetch_error (s := s.outBefore before) hs hf

end Sys2Proof.Machine
end

section
/-! Reset and the host's interface (70_reset_and_hazards.md R195 to R208): the reset state, loading and observing, and runs. -/

namespace Sys2Proof.Machine

/-! ### Reset -/

/-- Settles O51: no cell is listed at reset, and the registers are read one by one. -/
theorem resetState : Obligations.ResetState :=
  ⟨by decide, rfl, rfl, fun _ ha => Memory.read_of_lt ha, rfl, rfl, rfl⟩

/-- Settles O52: `reset()` reads nothing of the session but the platform. -/
theorem resetWorksInEveryStatus : Obligations.ResetWorksInEveryStatus := fun _ => ⟨rfl, rfl⟩

/-! ### Loading -/

/-- The calls of `load_bytes` before the run begins. -/
def Session.Loadable (h : Session) : Prop := h.begun = false ∧ h.core.status = .running ∧ h.core.pc = 0#8

theorem Session.loadBytes_refused {h : Session} (start : Nat) (bytes : List Byte)
    (hlate : h.begun = true ∨ h.core.status ≠ .running ∨ h.core.pc ≠ 0#8) :
    Session.loadBytes start bytes h = .refused .loadAfterStart :=
  if_pos (by simpa [or_assoc] using hlate)

theorem Session.loadBytes_eq {h : Session} (start : Nat) (bytes : List Byte) (hload : h.Loadable) :
    Session.loadBytes start bytes h =
      if 256 ≤ start then .fault (.outOfBounds start)
      else if 256 < start + bytes.length then .fault (.outOfBounds 256)
      else .next { h with core := h.core.setMem (h.core.mem.place start bytes) } := by
  obtain ⟨hbegun, hrunning, hpc⟩ := hload
  exact if_neg (by simp [hbegun, hrunning, hpc])

/-- Settles O53: the image is placed, byte by byte, in memory alone. -/
theorem loadBytesPlacesTheImage : Obligations.LoadBytesPlacesTheImage := by
  intro h start bytes hbegun hrunning hpc hstart hend
  have hload := Session.loadBytes_eq start bytes ⟨hbegun, hrunning, hpc⟩
  rw [if_neg (Nat.not_le.2 hstart), if_neg (Nat.not_lt.2 hend)] at hload
  exact ⟨_, hload, hbegun, fun k hk => Memory.read_place_inside hend hk, fun a ha => Memory.read_place_outside hend ha,
    rfl, rfl, rfl, ⟨rfl, rfl, rfl, rfl⟩, Memory.wf_place start bytes⟩

/-- Settles O54: either the start or the end of the range is the address reported. -/
theorem loadBytesFailsWholeOrIsRefused : Obligations.LoadBytesFailsWholeOrIsRefused := by
  refine fun h start bytes => ⟨fun hbegun hrunning hpc hout => ?_, Session.loadBytes_refused start bytes⟩
  rw [Session.loadBytes_eq start bytes ⟨hbegun, hrunning, hpc⟩]
  by_cases hstart : 256 ≤ start
  · exact ⟨start, if_pos hstart, hstart⟩
  · rw [if_neg hstart, if_pos (hout.resolve_left hstart)]
    exact ⟨256, rfl, le_rfl⟩

/-! ### Observing -/

theorem State.readMemory_of_read {s : State} {n : Nat} {v : Byte} (h : s.mem.read n = some v) :
    s.readMemory n = .ok v := by
  rw [State.readMemory, h]

theorem State.readMemory_of_ge {s : State} {n : Nat} (h : 256 ≤ n) : s.readMemory n = .error (.outOfBounds n) := by
  rw [State.readMemory, Memory.read_of_ge h]

/-- Settles O55: each call has one case in range and one outside. -/
theorem observationGivesRegistersAndCells : Obligations.ObservationGivesRegistersAndCells :=
  fun _ _ => ⟨fun h => dif_pos h, fun h => dif_neg (Nat.not_lt.2 h), fun _ => State.readMemory_of_read,
    State.readMemory_of_ge⟩

/-! ### Runs -/

theorem runSteps_of_terminal {s : State} (h : s.terminal) (n : Nat) : runSteps n s = s := by
  cases n with
  | zero => rfl
  | succ n =>
    rw [runSteps]
    split
    · contradiction
    · rfl
    · rfl

theorem runSteps_succ {s t : State} (hs : s.status = .running) (h : step s = .next t) (n : Nat) :
    runSteps (n + 1) s = runSteps n t := by
  simp [runSteps, hs, h]

theorem runSteps_add (n m : Nat) (s : State) : runSteps (n + m) s = runSteps m (runSteps n s) := by
  induction n generalizing s with
  | zero => rw [Nat.zero_add]; rfl
  | succ n ih =>
    by_cases hs : s.status = .running
    · obtain ⟨t, ht⟩ := everyStepGivesANextState s
      rw [Nat.add_right_comm, runSteps_succ hs ht, runSteps_succ hs ht, ih]
    · rw [runSteps_of_terminal hs, runSteps_of_terminal hs, runSteps_of_terminal hs]

theorem terminal_of_runResult {s : State} {r : RunResult} (h : s.runResult = some r) : s.terminal := by
  intro hs
  rw [State.runResult, hs] at h
  cases h

/-- A run that returns has stopped in a state with that result. -/
theorem Session.run_eq_some_iff {h g : Session} {r : RunResult} {fuel : Nat} : h.run fuel = some (r, g) ↔
    (runSteps fuel h.core).runResult = some r ∧ g = { core := runSteps fuel h.core, begun := true } := by
  simp [Session.run, eq_comm]

/-- Settles O56: the state a run stopped in is terminal, so more steps leave it alone. -/
theorem runEndsInATerminalStatus : Obligations.RunEndsInATerminalStatus := by
  intro h g r fuel hrun
  obtain ⟨hresult, rfl⟩ := Session.run_eq_some_iff.1 hrun
  have hterminal := terminal_of_runResult hresult
  refine ⟨hterminal, hresult, fun more => ?more, fun n => ?again⟩
  case more =>
    rw [Session.run_eq_some_iff, runSteps_add, runSteps_of_terminal hterminal]
    exact ⟨hresult, rfl⟩
  case again =>
    rw [Session.run_eq_some_iff, runSteps_of_terminal hterminal]
    exact ⟨hresult, rfl⟩

end Sys2Proof.Machine
end
